-- ==== Sys2Proof/Word.lean ====
section
/-! DEFINITION. The bit-vector types of the 8086 ALU/flags block (spec 00_scope.md rules R5 to R8). -/

namespace Sys2Proof

/-- A byte: eight bits (R6). -/
abbrev Byte := BitVec 8

/-- A word: sixteen bits (R6). -/
abbrev Word := BitVec 16

/-- The resolver's working value: 32 bits, read as signed (R5). -/
abbrev Work := BitVec 32

/-- The length input `len`: four bits, 0 to 15 bytes (R78). -/
abbrev Len := BitVec 4

/-- One instruction record `rec` as the front end supplies it (R65). -/
abbrev Record := BitVec 100

end Sys2Proof
end

