-- ==== Sys2Proof/Config.lean ====
section
/-! DEFINITION. What the spec leaves open. There is one such value: what the observation port's `pre` and `post`
carry after a committed step that has no destination register (notes/assumptions/1.md). -/

namespace Sys2Proof

/-- The value at `obs.pre` or `obs.post` after a commit without a destination register, one fresh value for each draw.
R104 says what the two carry when there is a destination, and at reset, and nothing for CMP and the jumps.
A free value: it has no body, so nothing can be proved of it. DESIGN CHOICE (notes/assumptions/1.md). -/
opaque Config.freeObs : Nat → Word

end Sys2Proof
end

