-- ==== Sys2Proof/Syntax.lean ====
section
/-! DEFINITION. Registers, operands, faults and the instructions: one constructor of `Instr` for each row of
spec/opcode_table.json (spec 30_encoding.md rules R66 to R75). -/

namespace Sys2Proof

/-- The two operation widths (R5). -/
inductive Width where
  | byte
  | word
deriving DecidableEq, Repr

/-- How many bits a width has: 8 or 16. -/
@[reducible] def Width.bits : Width → Nat
  | .byte => 8
  | .word => 16

/-- The eight byte registers, in index order (R22). -/
inductive ByteReg where
  | al | cl | dl | bl | ah | ch | dh | bh
deriving DecidableEq, Repr

/-- The eight word registers, in index order (R21). -/
inductive WordReg where
  | ax | cx | dx | bx | sp | bp | si | di
deriving DecidableEq, Repr

/-- A name of the register index space (R27): a byte register or a word register. -/
inductive Reg where
  | byte (b : ByteReg)
  | word (r : WordReg)
deriving DecidableEq, Repr

/-- A register's width follows from its index range (R27). -/
@[reducible] def Reg.width : Reg → Width
  | .byte _ => .byte
  | .word _ => .word

/-- `width(idx)` in bits (R27). -/
@[reducible] def Reg.bits (r : Reg) : Nat := r.width.bits

/-- An immediate value with its own width (R70). -/
inductive Imm where
  | imm8 (v : Byte)
  | imm16 (v : Word)
deriving DecidableEq, Repr

/-- An immediate's width (R70). -/
@[reducible] def Imm.width : Imm → Width
  | .imm8 _ => .byte
  | .imm16 _ => .word

/-- One operand descriptor with the payload its kind carries (R66 to R72). The bits a kind's rule does not name, and the
explicit-size bit of registers and immediates, are ignored (R73) and have no place here. -/
inductive Operand where
  /-- Operand slot unused. -/
  | empty
  /-- The declared width `w` and the register `idx` names (R67). -/
  | register (declared : Width) (r : Reg)
  /-- Address and explicit size, if present (R68). -/
  | memoryDirect (addr : Word) (size : Option Width)
  /-- Addressing-mode index, explicit size if present, and whether A3 holds its displacement (R68). -/
  | effectiveAddress (mode : BitVec 3) (size : Option Width) (hasDisp : Bool)
  | immediate (i : Imm)
  /-- The raw encoded displacement byte (R71). -/
  | relativeJump (rel : Byte)
  /-- A bare displacement value, of 8 or 16 bits (R69). -/
  | displacement (v : Imm)
  /-- The decode-failure sentinel (R72). -/
  | invalid
deriving DecidableEq, Repr

/-- The fault causes of R130, in code order 0 to 7. -/
inductive FaultCode where
  /-- 0: no fault has occurred. -/
  | none
  /-- 1 (R137). -/
  | unsupportedOpcode
  /-- 2, the not-implemented class (R131). -/
  | unsupportedMemorySource
  /-- 3, the invalid class (R132). -/
  | unsupportedInvalidSource
  /-- 4 (R134). -/
  | invalidDestination
  /-- 5 (R133). -/
  | unimplemented
  /-- 6 (R135). -/
  | invalidOperand
  /-- 7 (R136). -/
  | grammarViolation
deriving DecidableEq, Repr

/-- The operand slot a fault records (R11): 0 opcode, 1 and 2 the operands, 3 the attached displacement. -/
inductive Slot where
  | opcode | operand1 | operand2 | attached
deriving DecidableEq, Repr

/-- The fault record `fault = (code, slot)` of R20 and R130. -/
structure FaultRecord where
  code : FaultCode
  slot : Slot
deriving DecidableEq, Repr

/-- The opcodes whose operands are a destination and a source (R89). -/
inductive AluOp where
  | mov | add | sub | cmp
deriving DecidableEq, Repr

/-- The opcodes whose one operand is a relative jump (R89). -/
inductive JumpOp where
  | jnz | jz | jp | jc | loopnz
deriving DecidableEq, Repr

/-- The nine opcodes of R74. -/
inductive Opcode where
  | alu (o : AluOp)
  | jump (j : JumpOp)
deriving DecidableEq, Repr

/-- The instructions: one constructor for each admitted form of R75, which is each row of spec/opcode_table.json.
`len` is the length input that comes with the record (R78). -/
inductive Instr where
  | movRR (len : Len) (dst src : Reg)
  | movRI (len : Len) (dst : Reg) (imm : Imm)
  | addRR (len : Len) (dst src : Reg)
  | addRI (len : Len) (dst : Reg) (imm : Imm)
  | subRR (len : Len) (dst src : Reg)
  | subRI (len : Len) (dst : Reg) (imm : Imm)
  | cmpRR (len : Len) (dst src : Reg)
  | cmpRI (len : Len) (dst : Reg) (imm : Imm)
  | jnz (len : Len) (rel : Byte)
  | jz (len : Len) (rel : Byte)
  | jp (len : Len) (rel : Byte)
  | jc (len : Len) (rel : Byte)
  | loopnz (len : Len) (rel : Byte)
deriving DecidableEq, Repr

/-- The length input supplied with the instruction. -/
def Instr.len : Instr → Len
  | .movRR n _ _ | .movRI n _ _ | .addRR n _ _ | .addRI n _ _ => n
  | .subRR n _ _ | .subRI n _ _ | .cmpRR n _ _ | .cmpRI n _ _ => n
  | .jnz n _ | .jz n _ | .jp n _ | .jc n _ | .loopnz n _ => n

/-- The opcode an instruction's record carries (R74). -/
def Instr.opcode : Instr → Opcode
  | .movRR .. | .movRI .. => .alu .mov
  | .addRR .. | .addRI .. => .alu .add
  | .subRR .. | .subRI .. => .alu .sub
  | .cmpRR .. | .cmpRI .. => .alu .cmp
  | .jnz .. => .jump .jnz
  | .jz .. => .jump .jz
  | .jp .. => .jump .jp
  | .jc .. => .jump .jc
  | .loopnz .. => .jump .loopnz

end Sys2Proof
end

