-- ==== Sys2Proof/WellFormed.lean ====
section
/-! DEFINITION. Which instruction terms are admitted forms: the width conditions of spec 30_encoding.md rule R75. -/

namespace Sys2Proof

/-- R93 check 4: a register source has the destination's width. -/
def Reg.sameWidth (dst src : Reg) : Bool := src.width == dst.width

/-- R93 check 5: an immediate is no wider than the destination. -/
def Imm.fits (i : Imm) (dst : Reg) : Bool := decide (i.width.bits ≤ dst.bits)

/-- The admitted forms (R75). -/
def Instr.wellFormed : Instr → Bool
  | .movRR _ d s | .addRR _ d s | .subRR _ d s | .cmpRR _ d s => d.sameWidth s
  | .movRI _ d i | .addRI _ d i | .subRI _ d i | .cmpRI _ d i => i.fits d
  | .jnz .. | .jz .. | .jp .. | .jc .. | .loopnz .. => true

end Sys2Proof
end

