-- ==== Sys2Proof/Decode.lean ====
section
/-! DEFINITION. Decoding of instruction records, total and rejecting by fault code and slot, and the encoder
(spec 30_encoding.md rules R65 to R78, 40_execute_and_operands.md rules R86 to R95). -/

namespace Sys2Proof

/-! ### Register numbers (R21, R22, R27) -/

/-- Byte register i (R22). -/
def ByteReg.ofNum (n : BitVec 3) : ByteReg :=
  match n.getLsbD 2, n.getLsbD 1, n.getLsbD 0 with
  | false, false, false => .al
  | false, false, true => .cl
  | false, true, false => .dl
  | false, true, true => .bl
  | true, false, false => .ah
  | true, false, true => .ch
  | true, true, false => .dh
  | true, true, true => .bh

/-- A byte register's number (R22). -/
def ByteReg.num : ByteReg → BitVec 3
  | .al => 0 | .cl => 1 | .dl => 2 | .bl => 3 | .ah => 4 | .ch => 5 | .dh => 6 | .bh => 7

/-- Word register r (R21). -/
def WordReg.ofNum (n : BitVec 3) : WordReg :=
  match n.getLsbD 2, n.getLsbD 1, n.getLsbD 0 with
  | false, false, false => .ax
  | false, false, true => .cx
  | false, true, false => .dx
  | false, true, true => .bx
  | true, false, false => .sp
  | true, false, true => .bp
  | true, true, false => .si
  | true, true, true => .di

/-- A word register's number (R21). -/
def WordReg.num : WordReg → BitVec 3
  | .ax => 0 | .cx => 1 | .dx => 2 | .bx => 3 | .sp => 4 | .bp => 5 | .si => 6 | .di => 7

/-- The register an index names: 0 to 7 the byte registers, 8 to 15 the word registers (R27). -/
def Reg.ofIdx (i : BitVec 4) : Reg :=
  if i.getLsbD 3 then .word (WordReg.ofNum (i.setWidth 3)) else .byte (ByteReg.ofNum (i.setWidth 3))

/-- A register's index (R27). -/
def Reg.idx : Reg → BitVec 4
  | .byte b => 0#1 ++ b.num
  | .word r => 1#1 ++ r.num

/-- The word register that a byte register is one half of (R22). -/
def ByteReg.parent : ByteReg → WordReg
  | .al => .ax | .cl => .cx | .dl => .dx | .bl => .bx
  | .ah => .ax | .ch => .cx | .dh => .dx | .bh => .bx

/-- Whether a byte register is the high half of its word register (R22). -/
def ByteReg.isHigh : ByteReg → Bool
  | .al | .cl | .dl | .bl => false
  | .ah | .ch | .dh | .bh => true

/-! ### The fields of a record and of a descriptor (R65, R66) -/

/-- `rec[3:0]` (R65). -/
def Record.op (r : Record) : BitVec 4 := r.extractLsb' 0 4

/-- `rec[35:4]`, operand 1 (R65). -/
def Record.a1 (r : Record) : BitVec 32 := r.extractLsb' 4 32

/-- `rec[67:36]`, operand 2 (R65). -/
def Record.a2 (r : Record) : BitVec 32 := r.extractLsb' 36 32

/-- `rec[99:68]`, the attached displacement (R65). -/
def Record.a3 (r : Record) : BitVec 32 := r.extractLsb' 68 32

/-- Bits [2:0] of a descriptor (R66). -/
def Descriptor.kind (d : BitVec 32) : BitVec 3 := d.extractLsb' 0 3

/-- Bit [3], the width bit: 0 byte, 1 word (R66). -/
def Descriptor.w (d : BitVec 32) : Width := if d.getLsbD 3 then .word else .byte

/-- Bit [4] and the width bit: the explicit size of a memory operand, if present (R66, R68). -/
def Descriptor.explicitSize (d : BitVec 32) : Option Width :=
  if d.getLsbD 4 then some (Descriptor.w d) else none

/-- Bits [8:5], the register index (R66). -/
def Descriptor.idx (d : BitVec 32) : BitVec 4 := d.extractLsb' 5 4

/-- Bits [7:5], the addressing-mode index (R66, R68). -/
def Descriptor.mode (d : BitVec 32) : BitVec 3 := d.extractLsb' 5 3

/-- Bit [9]: A3 holds the displacement of this operand (R66). -/
def Descriptor.hd (d : BitVec 32) : Bool := d.getLsbD 9

/-- Bits [31:16], the payload (R66). -/
def Descriptor.val (d : BitVec 32) : Word := d.extractLsb' 16 16

/-- The payload at its own width: `val[7:0]` when w is 0, `val[15:0]` when w is 1 (R69, R70). -/
def Descriptor.payload (d : BitVec 32) : Imm :=
  match Descriptor.w d with
  | .byte => .imm8 ((Descriptor.val d).setWidth 8)
  | .word => .imm16 (Descriptor.val d)

/-- The operand a descriptor stands for: the kind tag selects, and only the fields that kind's rule names are read
(R66 to R73). -/
def Operand.ofBits (d : BitVec 32) : Operand :=
  match (Descriptor.kind d).getLsbD 2, (Descriptor.kind d).getLsbD 1, (Descriptor.kind d).getLsbD 0 with
  | false, false, false => .empty
  | false, false, true => .register (Descriptor.w d) (Reg.ofIdx (Descriptor.idx d))
  | false, true, false => .memoryDirect (Descriptor.val d) (Descriptor.explicitSize d)
  | false, true, true => .effectiveAddress (Descriptor.mode d) (Descriptor.explicitSize d) (Descriptor.hd d)
  | true, false, false => .immediate (Descriptor.payload d)
  | true, false, true => .relativeJump ((Descriptor.val d).setWidth 8)
  | true, true, false => .displacement (Descriptor.payload d)
  | true, true, true => .invalid

/-- The opcode map: tags 0 to 8, and none for the reserved tags 9 to 15 (R74). -/
def Opcode.ofTag (n : BitVec 4) : Option Opcode :=
  match n.getLsbD 3, n.getLsbD 2, n.getLsbD 1, n.getLsbD 0 with
  | false, false, false, false => some (.alu .mov)
  | false, false, false, true => some (.alu .add)
  | false, false, true, false => some (.alu .sub)
  | false, false, true, true => some (.alu .cmp)
  | false, true, false, false => some (.jump .jnz)
  | false, true, false, true => some (.jump .jz)
  | false, true, true, false => some (.jump .jp)
  | false, true, true, true => some (.jump .jc)
  | true, false, false, false => some (.jump .loopnz)
  | true, _, _, _ => none

/-- An opcode's tag (R74). -/
def Opcode.tag : Opcode → BitVec 4
  | .alu .mov => 0 | .alu .add => 1 | .alu .sub => 2 | .alu .cmp => 3
  | .jump .jnz => 4 | .jump .jz => 5 | .jump .jp => 6 | .jump .jc => 7 | .jump .loopnz => 8

/-! ### The checks of a record, in their order (R86) -/

/-- The fault resolving an operand as a source raises, if any (R90, R131, R132). -/
def Operand.sourceFault : Operand → Option FaultCode
  | .register _ _ | .immediate _ | .relativeJump _ | .empty => none
  | .memoryDirect _ _ | .effectiveAddress _ _ _ => some .unsupportedMemorySource
  | .displacement _ | .invalid => some .unsupportedInvalidSource

/-- Destination resolution: a register, no destination, or a fault (R92, R133 to R135). -/
def Operand.destination : Operand → Except FaultCode (Option Reg)
  | .register _ r => .ok (some r)
  | .empty => .ok none
  | .immediate _ => .error .invalidDestination
  | .memoryDirect _ _ | .effectiveAddress _ _ _ => .error .unimplemented
  | .relativeJump _ | .displacement _ | .invalid => .error .invalidOperand

/-- The fault of a failing grammar check: code 7 and the slot the check names (R136). -/
def grammarFault (slot : Slot) : FaultRecord := ⟨.grammarViolation, slot⟩

/-- R93 check 4, second half: the register source has the destination's width. -/
def sourceWidthOk (dst src : Reg) : Bool := decide (src.bits = dst.bits)

/-- R93 check 5: the immediate is no wider than the destination. -/
def immWidthOk (dst : Reg) (i : Imm) : Bool := decide (i.width.bits ≤ dst.bits)

/-- The source of an admitted MOV, ADD, SUB or CMP: a register or an immediate (R75). -/
inductive AluSource where
  | reg (r : Reg)
  | imm (i : Imm)
deriving DecidableEq, Repr

/-- R93 check 6 and R94 check 3: the attached displacement slot is empty. -/
def checkAttached (a3 : Operand) : Except FaultRecord Unit :=
  if a3 = .empty then .ok () else .error (grammarFault .attached)

/-- R93 checks 2 and 3: the destination is a register whose declared width agrees with its index. -/
def checkDestination (a1 : Operand) : Except FaultRecord Reg :=
  match a1 with
  | .register w d => if w = d.width then .ok d else .error (grammarFault .operand1)
  | _ => .error (grammarFault .operand1)

/-- The grammar checks of MOV, ADD, SUB and CMP in their order (R93). -/
def aluGrammar (a1 a2 a3 : Operand) : Except FaultRecord (Reg × AluSource) :=
  match a2 with
  | .register w2 r => do
      let d ← checkDestination a1
      if w2 ≠ r.width then .error (grammarFault .operand2)
      else if !sourceWidthOk d r then .error (grammarFault .operand2)
      else do
        checkAttached a3
        .ok (d, .reg r)
  | .immediate i => do
      let d ← checkDestination a1
      if !immWidthOk d i then .error (grammarFault .operand2)
      else do
        checkAttached a3
        .ok (d, .imm i)
  | _ => .error (grammarFault .operand2)

/-- The grammar checks of the jumps and LOOPNZ in their order (R94). -/
def jumpGrammar (a1 a2 a3 : Operand) : Except FaultRecord Byte :=
  match a1 with
  | .relativeJump rel =>
      if a2 ≠ .empty then .error (grammarFault .operand2)
      else do
        checkAttached a3
        .ok rel
  | _ => .error (grammarFault .operand1)

/-- All checks of a MOV, ADD, SUB or CMP record after its opcode: source, destination, grammar (R86, R89). -/
def aluChecks (a1 a2 a3 : Operand) : Except FaultRecord (Reg × AluSource) :=
  match a2.sourceFault with
  | some c => .error ⟨c, .operand2⟩
  | none =>
    match a1.destination with
    | .error c => .error ⟨c, .operand1⟩
    | .ok _ => aluGrammar a1 a2 a3

/-- All checks of a jump or LOOPNZ record after its opcode: source, grammar (R86, R89). -/
def jumpChecks (a1 a2 a3 : Operand) : Except FaultRecord Byte :=
  match a1.sourceFault with
  | some c => .error ⟨c, .operand1⟩
  | none => jumpGrammar a1 a2 a3

/-- The instruction of an admitted MOV, ADD, SUB or CMP record. -/
def AluOp.instr (o : AluOp) (len : Len) (d : Reg) (src : AluSource) : Instr :=
  match o, src with
  | .mov, .reg r => .movRR len d r
  | .mov, .imm i => .movRI len d i
  | .add, .reg r => .addRR len d r
  | .add, .imm i => .addRI len d i
  | .sub, .reg r => .subRR len d r
  | .sub, .imm i => .subRI len d i
  | .cmp, .reg r => .cmpRR len d r
  | .cmp, .imm i => .cmpRI len d i

/-- The instruction of an admitted jump or LOOPNZ record. -/
def JumpOp.instr (j : JumpOp) (len : Len) (rel : Byte) : Instr :=
  match j with
  | .jnz => .jnz len rel
  | .jz => .jz len rel
  | .jp => .jp len rel
  | .jc => .jc len rel
  | .loopnz => .loopnz len rel

/-- Decoding of a record over its operands, the opcode first (R86 check 1). -/
def decodeOperands (op : BitVec 4) (a1 a2 a3 : Operand) (len : Len) : Except FaultRecord Instr :=
  match Opcode.ofTag op with
  | none => .error ⟨.unsupportedOpcode, .opcode⟩
  | some (.alu o) => do
      let (d, src) ← aluChecks a1 a2 a3
      .ok (o.instr len d src)
  | some (.jump j) => do
      let rel ← jumpChecks a1 a2 a3
      .ok (j.instr len rel)

/-- Decoding: every record and length selects an admitted form or exactly one fault (R76, R86, R95). -/
def decode (r : Record) (len : Len) : Except FaultRecord Instr :=
  decodeOperands (Record.op r) (Operand.ofBits (Record.a1 r)) (Operand.ofBits (Record.a2 r))
    (Operand.ofBits (Record.a3 r)) len

/-! ### The encoder -/

/-- A descriptor from its fields, high bits first, the reserved bits 0 (R66). -/
def Descriptor.make (kind : BitVec 3) (w es : Bool) (idx : BitVec 4) (hd : Bool) (val : Word) : BitVec 32 :=
  val ++ (0#6 ++ (BitVec.ofBool hd ++ (idx ++ (BitVec.ofBool es ++ (BitVec.ofBool w ++ kind)))))

/-- A width as the width bit (R66). -/
def Width.bit : Width → Bool
  | .byte => false
  | .word => true

/-- A value and its width as the payload field (R69, R70). -/
def Imm.field : Imm → Word
  | .imm8 v => 0#8 ++ v
  | .imm16 v => v

/-- An operand's descriptor, every ignored bit 0 (R66 to R73). -/
def Operand.bits : Operand → BitVec 32
  | .empty => Descriptor.make 0 false false 0 false 0
  | .register w r => Descriptor.make 1 w.bit false r.idx false 0
  | .memoryDirect a none => Descriptor.make 2 false false 0 false a
  | .memoryDirect a (some w) => Descriptor.make 2 w.bit true 0 false a
  | .effectiveAddress m none h => Descriptor.make 3 false false (0#1 ++ m) h 0
  | .effectiveAddress m (some w) h => Descriptor.make 3 w.bit true (0#1 ++ m) h 0
  | .immediate i => Descriptor.make 4 i.width.bit false 0 false i.field
  | .relativeJump b => Descriptor.make 5 false false 0 false (0#8 ++ b)
  | .displacement i => Descriptor.make 6 i.width.bit false 0 false i.field
  | .invalid => Descriptor.make 7 false false 0 false 0

/-- A record from its opcode tag and operands (R65). -/
def Record.make (op : BitVec 4) (a1 a2 a3 : Operand) : Record :=
  a3.bits ++ (a2.bits ++ (a1.bits ++ op))

/-- A register operand whose declared width agrees with its index (R67). -/
def Reg.operand (r : Reg) : Operand := .register r.width r

/-- Operand 1 of an instruction's record (R75). -/
def Instr.a1 : Instr → Operand
  | .movRR _ d _ | .movRI _ d _ | .addRR _ d _ | .addRI _ d _ => d.operand
  | .subRR _ d _ | .subRI _ d _ | .cmpRR _ d _ | .cmpRI _ d _ => d.operand
  | .jnz _ b | .jz _ b | .jp _ b | .jc _ b | .loopnz _ b => .relativeJump b

/-- Operand 2 of an instruction's record (R75). -/
def Instr.a2 : Instr → Operand
  | .movRR _ _ s | .addRR _ _ s | .subRR _ _ s | .cmpRR _ _ s => s.operand
  | .movRI _ _ i | .addRI _ _ i | .subRI _ _ i | .cmpRI _ _ i => .immediate i
  | .jnz .. | .jz .. | .jp .. | .jc .. | .loopnz .. => .empty

/-- The record of an instruction, every ignored bit 0 (R65, R74, R75). Its length input is `Instr.len`. -/
def encode (i : Instr) : Record := Record.make i.opcode.tag i.a1 i.a2 .empty

/-- The host's reading of a table word: bits 99..0 are the record, bits 103..100 the length input
(notes/assumptions/4.md). -/
def decodeTableWord (nbits w : Nat) : Option Instr :=
  match decode (BitVec.ofNat 100 (w % 2 ^ nbits)) (BitVec.ofNat 4 (w % 2 ^ nbits / 2 ^ 100)) with
  | .ok i => some i
  | .error _ => none

end Sys2Proof
end

