-- ==== Sys2Proof/Machine/State.lean ====
section
/-! DEFINITION. The state of the block, of its observation port and of its inputs (spec 10_state.md rules R20 to R41,
70_reset_and_hazards.md rules R151 to R155). -/

namespace Sys2Proof.Machine

/-- The register file's storage: a 16-byte buffer (R23). -/
abbrev RegFile := Vector Byte 16

/-- The values the observation port adds for the last committed step (R39, R104). -/
structure Observation where
  /-- The register the step wrote, or none. -/
  dest : Option Reg
  /-- The containing word register before the step. -/
  pre : Word
  /-- The containing word register after the step. -/
  post : Word
deriving DecidableEq, Repr

/-- One instruction of the program the front end holds: its address, its record and its encoded length (R154). -/
structure ProgramSlot where
  addr : Nat
  record : Record
  len : Len
deriving DecidableEq, Repr

/-- The program the front end holds, by address: at most one instruction an address, addresses strictly rising.
An address with no entry is one at which the front end supplies no record: END_OF_PROGRAM (R155). -/
abbrev Program := List ProgramSlot

/-- Everything the spec gives the block, its observation port and its inputs; `freeDraws` is the model's own. -/
structure State where
  /-- `regs[0..15]` (R23). -/
  regs : RegFile
  /-- The instruction pointer (R29). -/
  ip : Word
  /-- The flags register (R32). -/
  flags : Word
  /-- Set by a fault, cleared only by reset (R38). -/
  halted : Bool
  /-- The cause of the fault that halted the block (R38). -/
  fault : FaultRecord
  /-- `obs.dest`, `obs.pre`, `obs.post` (R39). -/
  obs : Observation
  /-- What the front end supplies on `rec` and `len` when `ip` is read (R153, R154). -/
  program : Program
  /-- The `reset` input, asserted for the next step (R153). -/
  resetIn : Bool
  /-- The model's own counter of free values drawn (notes/assumptions/1.md). -/
  freeDraws : Nat
deriving DecidableEq, Repr

/-- Reasons a step stops outside the state. There are none: each fault of this block is a state it enters, with
`halted` and `fault` written (R138), and nothing in the spec is left without an effect. -/
inductive Fault where
deriving DecidableEq, Repr

/-- Refusals by name. -/
inductive Refusal where
  /-- Raised by an arm of `exec` whose instruction has no meaning yet; safe. No arm raises it now. -/
  | notModelled (mnemonic : String)
deriving DecidableEq, Repr

/-- No fault has occurred: code 0, slot 0 (R40). -/
def FaultRecord.cleared : FaultRecord := ⟨.none, .opcode⟩

/-- The machine right after reset: every field at the value R40 and R151 give. The front end's program is empty,
because a program is loaded from outside (notes/assumptions/3.md). -/
def State.reset : State where
  regs := Vector.replicate 16 0
  ip := 0
  flags := 0
  halted := false
  fault := FaultRecord.cleared
  obs := ⟨none, 0, 0⟩
  program := []
  resetIn := false
  freeDraws := 0

end Sys2Proof.Machine
end

