-- ==== Sys2Proof/Machine/Flags.lean ====
section
/-! DEFINITION. The flag computation unit (spec 44_flags.md) and the flags register's fields (10_state.md rule R32). -/

namespace Sys2Proof.Machine

/-- The six flags a flag-writing step computes. `ovf` is OF. -/
structure FlagBits where
  cf : Bool
  pf : Bool
  af : Bool
  zf : Bool
  sf : Bool
  ovf : Bool
deriving DecidableEq, Repr

/-- How many of a byte's bits are 1. -/
def popcount (b : Byte) : Nat :=
  (b.getLsbD 0).toNat + (b.getLsbD 1).toNat + (b.getLsbD 2).toNat + (b.getLsbD 3).toNat +
    (b.getLsbD 4).toNat + (b.getLsbD 5).toNat + (b.getLsbD 6).toNat + (b.getLsbD 7).toNat

/-- ZF: the W-bit result is zero (R121). -/
def zeroFlag {w : Nat} (d1 : BitVec w) : Bool := d1 == 0#w

/-- SF: bit W-1 of the result (R122). -/
def signFlag {w : Nat} (d1 : BitVec w) : Bool := d1.msb

/-- OF from `m`, the source as it was actually combined: its sign equals the destination's and differs from the
result's (R123). -/
def overflowFlag {w : Nat} (m : Int) (d0 d1 : BitVec w) : Bool :=
  (decide (m < 0) == d0.msb) && (d0.msb != d1.msb)

/-- PF: the result's low eight bits hold an even number of 1 bits (R125). -/
def parityFlag {w : Nat} (d1 : BitVec w) : Bool := popcount (d1.setWidth 8) % 2 == 0

/-- The low nibble, bits 3..0, as a number (R126). -/
def lowNibble {w : Nat} (v : BitVec w) : Nat := v.toNat % 16

/-- The flag unit for ADD: `flags_add(D0, S_W, D1, W)` (R121 to R126). -/
def flagsAdd {w : Nat} (d0 s d1 : BitVec w) : FlagBits where
  cf := decide (2 ^ w ≤ d0.toNat + s.toNat)
  pf := parityFlag d1
  af := decide (16 ≤ lowNibble d0 + lowNibble s)
  zf := zeroFlag d1
  sf := signFlag d1
  ovf := overflowFlag s.toInt d0 d1

/-- The flag unit for SUB and CMP: `flags_sub(D0, S_W, D1, W)` (R121 to R126). The negation is taken on integers. -/
def flagsSub {w : Nat} (d0 s d1 : BitVec w) : FlagBits where
  cf := decide (d0.toNat < s.toNat)
  pf := parityFlag d1
  af := decide (lowNibble d0 < lowNibble s)
  zf := zeroFlag d1
  sf := signFlag d1
  ovf := overflowFlag (-s.toInt) d0 d1

/-- The bits of `flags` that hold a flag: CF 0, PF 2, AF 4, ZF 6, SF 7, OF 11 (R32). -/
def definedFlagBits : Word := 0x08D5

/-- A Bool as a word with that bit at position `n`. -/
def bitAt (b : Bool) (n : Nat) : Word := (BitVec.ofBool b).setWidth 16 <<< n

/-- The word R127 gives the flags register. -/
def FlagBits.word (f : FlagBits) : Word :=
  bitAt f.ovf 11 ||| bitAt f.sf 7 ||| bitAt f.zf 6 ||| bitAt f.af 4 ||| bitAt f.pf 2 ||| bitAt f.cf 0

/-- Writing all six flags together; the other bits are not written (R34, R127; notes/assumptions/6.md). -/
def writeFlags (old : Word) (f : FlagBits) : Word := (old &&& ~~~definedFlagBits) ||| f.word

/-- FL.CF, bit 0 (R32). -/
def State.cf (s : State) : Bool := s.flags.getLsbD 0

/-- FL.PF, bit 2 (R32). -/
def State.pf (s : State) : Bool := s.flags.getLsbD 2

/-- FL.AF, bit 4 (R32). -/
def State.af (s : State) : Bool := s.flags.getLsbD 4

/-- FL.ZF, bit 6 (R32). -/
def State.zf (s : State) : Bool := s.flags.getLsbD 6

/-- FL.SF, bit 7 (R32). -/
def State.sf (s : State) : Bool := s.flags.getLsbD 7

/-- FL.OF, bit 11 (R32). -/
def State.ovf (s : State) : Bool := s.flags.getLsbD 11

/-- The six flags as the flags register holds them. -/
def State.flagBits (s : State) : FlagBits := ⟨s.cf, s.pf, s.af, s.zf, s.sf, s.ovf⟩

end Sys2Proof.Machine
end

