-- ==== Sys2Proof/Machine/Ops.lean ====
section
/-! DEFINITION. The operations every instruction shares: the register file, the commit, taking a fault, reset, and what
the front end supplies (spec 10_state.md rules R23 to R27, 40_execute_and_operands.md rules R88, R99, R104,
60_exceptions.md rule R138, 70_reset_and_hazards.md rules R151 and R154). -/

namespace Sys2Proof.Machine

/-! ### The register file -/

/-- The offset of a word register's low byte, 2r; its high byte is the next one (R23). -/
def lowOffset : WordReg → Fin 16
  | .ax => 0 | .cx => 2 | .dx => 4 | .bx => 6 | .sp => 8 | .bp => 10 | .si => 12 | .di => 14

/-- The offset of a word register's high byte, 2r+1 (R23). -/
def highOffset : WordReg → Fin 16
  | .ax => 1 | .cx => 3 | .dx => 5 | .bx => 7 | .sp => 9 | .bp => 11 | .si => 13 | .di => 15

/-- `boff(i)`: the byte of the buffer a byte register is (R25). -/
def byteOffset (b : ByteReg) : Fin 16 :=
  if b.isHigh then highOffset b.parent else lowOffset b.parent

/-- `RB(i)` (R25). -/
def RegFile.rb (f : RegFile) (b : ByteReg) : Byte := f.get (byteOffset b)

/-- `RW(r)`: both bytes, the high one in bits 15:8 (R24). -/
def RegFile.rw (f : RegFile) (r : WordReg) : Word := f.get (highOffset r) ++ f.get (lowOffset r)

/-- `RB(i) <- v` (R26). -/
def RegFile.setRb (f : RegFile) (b : ByteReg) (v : Byte) : RegFile :=
  f.set (byteOffset b) v (byteOffset b).isLt

/-- `RW(r) <- v` (R26). -/
def RegFile.setRw (f : RegFile) (r : WordReg) (v : Word) : RegFile :=
  (f.set (lowOffset r) (v.extractLsb' 0 8) (lowOffset r).isLt).set (highOffset r) (v.extractLsb' 8 8)
    (highOffset r).isLt

/-- `x[idx]`, at the index's width (R27). -/
def RegFile.read (f : RegFile) : (r : Reg) → BitVec r.bits
  | .byte b => RegFile.rb f b
  | .word r => RegFile.rw f r

/-- `x[idx] <- v` (R27). -/
def RegFile.write (f : RegFile) : (r : Reg) → BitVec r.bits → RegFile
  | .byte b, v => RegFile.setRb f b v
  | .word r, v => RegFile.setRw f r v

/-- `RB(i)` of a state. -/
def State.rb (s : State) (b : ByteReg) : Byte := RegFile.rb s.regs b

/-- `RW(r)` of a state. -/
def State.rw (s : State) (r : WordReg) : Word := RegFile.rw s.regs r

/-- `x[idx]` of a state. -/
def State.read (s : State) (r : Reg) : BitVec r.bits := RegFile.read s.regs r

/-- The word register that contains a register (R104). -/
def container : Reg → WordReg
  | .byte b => b.parent
  | .word r => r

/-! ### The commit -/

/-- `ip_seq = (ip + len) mod 2^16` (R88). -/
def State.ipSeq (s : State) (len : Len) : Word := s.ip + len.setWidth 16

/-- A destination write: a register and its new value at that register's width. -/
abbrev DestWrite := (r : Reg) × BitVec r.bits

/-- The registers after a commit (R99). -/
def committedRegs (f : RegFile) : Option DestWrite → RegFile
  | some ⟨r, v⟩ => RegFile.write f r v
  | none => f

/-- The flags register after a commit (R99). -/
def committedFlags (old : Word) : Option FlagBits → Word
  | some f => writeFlags old f
  | none => old

/-- The observation after a commit (R104). Without a destination, `pre` and `post` are free values
(notes/assumptions/1.md). -/
def committedObs (s : State) : Option DestWrite → Observation
  | some ⟨r, v⟩ =>
    { dest := some r
      pre := RegFile.rw s.regs (container r)
      post := RegFile.rw (RegFile.write s.regs r v) (container r) }
  | none =>
    { dest := none
      pre := Config.freeObs s.freeDraws
      post := Config.freeObs (s.freeDraws + 1) }

/-- The free values drawn by a commit: two when it has no destination. -/
def committedDraws (n : Nat) : Option DestWrite → Nat
  | some _ => n
  | none => n + 2

/-- The one indivisible update of a step that does not fault: the destination write if it has one, the six flags if it
writes them, the new `ip`, and the observation (R99, R104). -/
def State.commit (s : State) (dest : Option DestWrite) (fl : Option FlagBits) (ip : Word) : State :=
  { s with
    regs := committedRegs s.regs dest
    flags := committedFlags s.flags fl
    ip := ip
    obs := committedObs s dest
    freeDraws := committedDraws s.freeDraws dest }

/-! ### Taking a fault, and reset -/

/-- Taking a fault: `halted <- 1` and the fault record, and nothing else (R103, R138). There is no return from a fault
(R141); reset is the only way out. -/
def State.takeFault (s : State) (f : FaultRecord) : State := { s with halted := true, fault := f }

/-- Reset: the whole block and its observation take their reset values (R40, R151). The front end's program is not the
block's and stays, and the `reset` input has done its work (notes/assumptions/5.md). -/
def State.applyReset (s : State) : State :=
  { State.reset with program := s.program, freeDraws := s.freeDraws }

/-! ### What the front end supplies -/

/-- The instruction that starts at an address, if the program holds one. -/
def Program.find : Program → Nat → Option ProgramSlot
  | [], _ => none
  | p :: rest, a => if p.addr = a then some p else Program.find rest a

/-- A program with the slot at `p.addr` replaced or added, in rising order of addresses. -/
def Program.insert (p : ProgramSlot) : Program → Program
  | [] => [p]
  | q :: rest =>
    if p.addr < q.addr then p :: q :: rest
    else if p.addr = q.addr then p :: rest
    else q :: Program.insert p rest

/-- The canonical form: every address above the bound, and strictly rising. -/
def Program.risingFrom : Nat → Program → Bool
  | _, [] => true
  | lo, p :: rest => decide (lo ≤ p.addr) && Program.risingFrom (p.addr + 1) rest

/-- A program in canonical form whose addresses are values of `ip`. -/
def Program.wf (p : Program) : Bool := Program.risingFrom 0 p && p.all fun q => decide (q.addr < 2 ^ 16)

/-- The front end's duty: the record and length of the instruction that starts at `ip`, or nothing where the program
has none (R154, R155). -/
def State.supplied (s : State) : Option ProgramSlot := Program.find s.program s.ip.toNat

/-- The state with one more instruction in the front end's program, at an address. -/
def State.load (s : State) (a : Word) (r : Record) (len : Len) : State :=
  { s with program := Program.insert ⟨a.toNat, r, len⟩ s.program }

end Sys2Proof.Machine
end

