-- ==== Sys2Proof/Machine/Operands.lean ====
section
/-! DEFINITION. Operand resolution (spec 40_execute_and_operands.md rules R89 to R98): the 32-bit working value of each
source form, the destination, and the width guard of a meaning. -/

namespace Sys2Proof.Machine

/-- A register source, read at its index's width and sign-extended (R91). -/
def State.sourceReg (s : State) (r : Reg) : Work := (s.read r).signExtend 32

/-- `imm_value`: an immediate sign-extended from its own width (R70). -/
def immValue : Imm → Work
  | .imm8 v => v.signExtend 32
  | .imm16 v => v.signExtend 32

/-- `rel_value`: the raw displacement byte, as a signed value (R71). -/
def relValue (b : Byte) : Work := b.signExtend 32

/-- The working value of an operand that resolves as a source; `empty` gives 0 (R90). The kinds that fault
(`Operand.sourceFault`) have no value and never reach this with one. -/
def State.sourceValue (s : State) : Operand → Work
  | .register _ r => s.sourceReg r
  | .immediate i => immValue i
  | .relativeJump b => relValue b
  | .empty | .memoryDirect _ _ | .effectiveAddress _ _ _ | .displacement _ | .invalid => 0

/-- `resolve_source(A, slot)`: the working value, or the fault with its slot (R90). -/
def State.resolveSource (s : State) (a : Operand) (slot : Slot) : Except FaultRecord Work :=
  match a.sourceFault with
  | some c => .error ⟨c, slot⟩
  | none => .ok (s.sourceValue a)

/-- `resolve_destination(A, slot)`: a register, none, or the fault with its slot (R92). -/
def resolveDestination (a : Operand) (slot : Slot) : Except FaultRecord (Option Reg) :=
  match a.destination with
  | .error c => .error ⟨c, slot⟩
  | .ok loc => .ok loc

/-- `S_W = trunc_W(S)` at the destination's width (R96). -/
def truncTo (d : Reg) (v : Work) : BitVec d.bits := v.setWidth d.bits

/-- A meaning's grammar guard: the next state if the operands' widths agree, else the fault of R93 check 4 or 5, code 7
at slot 2. -/
def guardWidths (ok : Bool) (s t : State) : Host.Outcome State Fault Refusal :=
  if ok then .next t else .next (s.takeFault (grammarFault .operand2))

/-- The guard for a register source. -/
def guardReg (d r : Reg) (s t : State) : Host.Outcome State Fault Refusal :=
  guardWidths (sourceWidthOk d r) s t

/-- The guard for an immediate source. -/
def guardImm (d : Reg) (i : Imm) (s t : State) : Host.Outcome State Fault Refusal :=
  guardWidths (immWidthOk d i) s t

/-- The target logic shared by the five control instructions (R111): the displacement is added to `ip_seq` when taken. -/
def State.jumpTo (s : State) (len : Len) (rel : Work) (taken : Bool) : Word :=
  if taken then s.ipSeq len + rel.setWidth 16 else s.ipSeq len

end Sys2Proof.Machine
end

