-- ==== Sys2Proof/Machine/Arith.lean ====
section
/-! DEFINITION. ADD, SUB and CMP (spec 42_arith.md rules R107 to R110). -/

namespace Sys2Proof.Machine

/-- The commit of ADD with working value `v` (R107). -/
def State.addTo (s : State) (len : Len) (d : Reg) (v : Work) : State :=
  let d0 := s.read d
  let sw := truncTo d v
  let d1 := d0 + sw
  s.commit (some ⟨d, d1⟩) (some (flagsAdd d0 sw d1)) (s.ipSeq len)

/-- The commit of SUB with working value `v` (R108). -/
def State.subFrom (s : State) (len : Len) (d : Reg) (v : Work) : State :=
  let d0 := s.read d
  let sw := truncTo d v
  let d1 := d0 - sw
  s.commit (some ⟨d, d1⟩) (some (flagsSub d0 sw d1)) (s.ipSeq len)

/-- The commit of CMP with working value `v`: SUB's flags, no register write (R109). -/
def State.compare (s : State) (len : Len) (d : Reg) (v : Work) : State :=
  let d0 := s.read d
  let sw := truncTo d v
  s.commit none (some (flagsSub d0 sw (d0 - sw))) (s.ipSeq len)

/-- ADD reg, reg (R107). -/
def execAddRR (len : Len) (d r : Reg) (s : State) : Host.Outcome State Fault Refusal :=
  guardReg d r s (s.addTo len d (s.sourceReg r))

/-- ADD reg, imm (R107). -/
def execAddRI (len : Len) (d : Reg) (i : Imm) (s : State) : Host.Outcome State Fault Refusal :=
  guardImm d i s (s.addTo len d (immValue i))

/-- SUB reg, reg (R108). -/
def execSubRR (len : Len) (d r : Reg) (s : State) : Host.Outcome State Fault Refusal :=
  guardReg d r s (s.subFrom len d (s.sourceReg r))

/-- SUB reg, imm (R108). -/
def execSubRI (len : Len) (d : Reg) (i : Imm) (s : State) : Host.Outcome State Fault Refusal :=
  guardImm d i s (s.subFrom len d (immValue i))

/-- CMP reg, reg (R109). -/
def execCmpRR (len : Len) (d r : Reg) (s : State) : Host.Outcome State Fault Refusal :=
  guardReg d r s (s.compare len d (s.sourceReg r))

/-- CMP reg, imm (R109). -/
def execCmpRI (len : Len) (d : Reg) (i : Imm) (s : State) : Host.Outcome State Fault Refusal :=
  guardImm d i s (s.compare len d (immValue i))

end Sys2Proof.Machine
end

