-- ==== Sys2Proof/Machine/Control.lean ====
section
/-! DEFINITION. JNZ, JZ, JP, JC and LOOPNZ (spec 43_control.md rules R111 to R118). -/

namespace Sys2Proof.Machine

/-- The commit of a conditional jump: only `ip` (R111, R118). -/
def State.jump (s : State) (len : Len) (rel : Byte) (taken : Bool) : State :=
  s.commit none none (s.jumpTo len (relValue rel) taken)

/-- JNZ: taken iff ZF is 0 (R112). -/
def execJnz (len : Len) (rel : Byte) (s : State) : Host.Outcome State Fault Refusal :=
  .next (s.jump len rel (!s.zf))

/-- JZ: taken iff ZF is 1 (R113). -/
def execJz (len : Len) (rel : Byte) (s : State) : Host.Outcome State Fault Refusal :=
  .next (s.jump len rel s.zf)

/-- JP: taken iff PF is 1 (R114). -/
def execJp (len : Len) (rel : Byte) (s : State) : Host.Outcome State Fault Refusal :=
  .next (s.jump len rel s.pf)

/-- JC: taken iff CF is 1 (R115). -/
def execJc (len : Len) (rel : Byte) (s : State) : Host.Outcome State Fault Refusal :=
  .next (s.jump len rel s.cf)

/-- The loop counter register: CX, word register 1 (R116). -/
def loopCounter : WordReg := .cx

/-- LOOPNZ: CX is decremented always; taken iff the new CX is not 0 and ZF, as before the step, is 0 (R116). -/
def execLoopnz (len : Len) (rel : Byte) (s : State) : Host.Outcome State Fault Refusal :=
  let cx := s.rw loopCounter - 1
  .next (s.commit (some ⟨.word loopCounter, cx⟩) none (s.jumpTo len (relValue rel) (cx != 0 && !s.zf)))

end Sys2Proof.Machine
end

