-- ==== Sys2Proof/Machine/Move.lean ====
section
/-! DEFINITION. MOV (spec 41_move.md rule R105). -/

namespace Sys2Proof.Machine

/-- The commit of MOV with working value `v`: destination <- trunc_W(S), no flag, `ip_seq` (R105). -/
def State.move (s : State) (len : Len) (d : Reg) (v : Work) : State :=
  s.commit (some ⟨d, truncTo d v⟩) none (s.ipSeq len)

/-- MOV reg, reg (R105). -/
def execMovRR (len : Len) (d r : Reg) (s : State) : Host.Outcome State Fault Refusal :=
  guardReg d r s (s.move len d (s.sourceReg r))

/-- MOV reg, imm (R105). -/
def execMovRI (len : Len) (d : Reg) (i : Imm) (s : State) : Host.Outcome State Fault Refusal :=
  guardImm d i s (s.move len d (immValue i))

end Sys2Proof.Machine
end

