-- ==== Sys2Proof/Machine/Dispatch.lean ====
section
/-! DEFINITION. One arm for each constructor of Instr. -/

namespace Sys2Proof.Machine

/-- The meaning of each instruction. -/
def exec (i : Instr) (s : State) : Host.Outcome State Fault Refusal :=
  match i with
  | .movRR len d r => Sys2Proof.Machine.execMovRR len d r s
  | .movRI len d v => Sys2Proof.Machine.execMovRI len d v s
  | .addRR len d r => Sys2Proof.Machine.execAddRR len d r s
  | .addRI len d v => Sys2Proof.Machine.execAddRI len d v s
  | .subRR len d r => Sys2Proof.Machine.execSubRR len d r s
  | .subRI len d v => Sys2Proof.Machine.execSubRI len d v s
  | .cmpRR len d r => Sys2Proof.Machine.execCmpRR len d r s
  | .cmpRI len d v => Sys2Proof.Machine.execCmpRI len d v s
  | .jnz len rel => Sys2Proof.Machine.execJnz len rel s
  | .jz len rel => Sys2Proof.Machine.execJz len rel s
  | .jp len rel => Sys2Proof.Machine.execJp len rel s
  | .jc len rel => Sys2Proof.Machine.execJc len rel s
  | .loopnz len rel => Sys2Proof.Machine.execLoopnz len rel s

end Sys2Proof.Machine
end

