-- ==== Sys2Proof/Machine/Transfer.lean ====
section
/-! DEFINITION. One transfer over the block's interface: a record and its length supplied with the `step` input
(spec 40_execute_and_operands.md rule R85, 70_reset_and_hazards.md rule R153). -/

namespace Sys2Proof.Machine

/-- `step(st, rec, len)` of R85, for ANY record and length: no step while halted (R87); a record outside the grammar
takes its fault (R138); an admitted form runs. -/
def transfer (r : Record) (len : Len) (s : State) : Host.Outcome State Fault Refusal :=
  if s.halted then .next s
  else
    match decode r len with
    | .ok i => exec i s
    | .error f => .next (s.takeFault f)

/-- One step of the block and its front end: the `reset` input first (R151); else the record and length the front end
supplies at `ip` are transferred (R154); where it supplies none, the block takes no step (R155). -/
def stepWithInputs (s : State) : Host.Outcome State Fault Refusal :=
  if s.resetIn then .next s.applyReset
  else
    match s.supplied with
    | some p => transfer p.record p.len s
    | none => .next s

end Sys2Proof.Machine
end

