-- ==== Sys2Proof/Machine/Step.lean ====
section
/-! DEFINITION. The machine's step, and the host's way to place one instruction. -/

namespace Sys2Proof.Machine

/-- One step. -/
def step (s : State) : Host.Outcome State Fault Refusal := stepWithInputs s

/-- The instruction whose record is bits 99..0 of `w` and whose length input is bits 103..100, placed where the front
end supplies the next one from, the address `ip`; the `reset` input is released, or it would come first. `halted` is
left as it is: a halted block runs no instruction (notes/assumptions/3.md, 4.md). -/
def State.withFetchWord (s : State) (nbits w : Nat) : State :=
  { s.load s.ip (BitVec.ofNat 100 (w % 2 ^ nbits)) (BitVec.ofNat 4 (w % 2 ^ nbits / 2 ^ 100)) with resetIn := false }

end Sys2Proof.Machine
end

