-- ==== Sys2Proof/Machine/Asm.lean ====
section
/-! DEFINITION. The written form of an instruction (spec 30_encoding.md rules R80 to R82). Display only: no step reads it. -/

namespace Sys2Proof.Machine

/-- A byte register's name in assembly (R22, R80). -/
def byteRegName : ByteReg → String
  | .al => "al" | .cl => "cl" | .dl => "dl" | .bl => "bl" | .ah => "ah" | .ch => "ch" | .dh => "dh" | .bh => "bh"

/-- A word register's name in assembly (R21, R80). -/
def wordRegName : WordReg → String
  | .ax => "ax" | .cx => "cx" | .dx => "dx" | .bx => "bx" | .sp => "sp" | .bp => "bp" | .si => "si" | .di => "di"

/-- A register's plain name (R80). -/
def regName : Reg → String
  | .byte b => byteRegName b
  | .word r => wordRegName r

/-- The spellings of an opcode, the first one its name in this spec; the others are the same instruction (R80, R82). -/
def spellings : Opcode → List String
  | .alu .mov => ["mov"]
  | .alu .add => ["add"]
  | .alu .sub => ["sub"]
  | .alu .cmp => ["cmp"]
  | .jump .jnz => ["jnz", "jne"]
  | .jump .jz => ["jz", "je"]
  | .jump .jp => ["jp", "jpe"]
  | .jump .jc => ["jc", "jb", "jnae"]
  | .jump .loopnz => ["loopnz", "loopne"]

/-- `N`: the raw decoded byte plus 2, relative to the jump's own address (R81). -/
def writtenOffset (rel : Byte) : Int := rel.toInt + 2

/-- The written form of a relative jump, `$+N` or `$-N`; N = 0 is `$+0` (R81). -/
def relText (rel : Byte) : String :=
  if 0 ≤ writtenOffset rel then "$+" ++ toString (writtenOffset rel).toNat
  else "$-" ++ toString (-(writtenOffset rel)).toNat

/-- An immediate as an unsigned literal (R80 leaves the sign open; notes/assumptions/8.md). -/
def immText : Imm → String
  | .imm8 v => toString v.toNat
  | .imm16 v => toString v.toNat

/-- The operands of an instruction, destination first (R80). -/
def operandsText : Instr → String
  | .movRR _ d r | .addRR _ d r | .subRR _ d r | .cmpRR _ d r => regName d ++ ", " ++ regName r
  | .movRI _ d i | .addRI _ d i | .subRI _ d i | .cmpRI _ d i => regName d ++ ", " ++ immText i
  | .jnz _ b | .jz _ b | .jp _ b | .jc _ b | .loopnz _ b => relText b

/-- `<mnemonic> <operand1>, <operand2>` (R80). -/
def asmText (i : Instr) : String := (spellings i.opcode).headD "" ++ " " ++ operandsText i

end Sys2Proof.Machine
end

