-- ==== Sys2Proof/Machine/FrontEnd.lean ====
section
/-! DEFINITION. The informative 8086 byte forms behind the admitted records (spec 30_encoding.md rule R79), as a front end
reads them. No step depends on this file (notes/assumptions/7.md). -/

namespace Sys2Proof.Machine

/-- The register of an 8086 width bit and three-bit register field: index 8w + field (R27, R79). -/
def regOfField (w : Bool) (field : BitVec 3) : Reg := Reg.ofIdx (BitVec.ofBool w ++ field)

/-- The instruction of the three-bit group field: /0 ADD, /5 SUB, /7 CMP (R79). -/
def groupOp (field : BitVec 3) : Option AluOp :=
  if field = 0 then some .add else if field = 5 then some .sub else if field = 7 then some .cmp else none

/-- A ModRM byte with mod = 11: its reg and rm fields. Any other mod names memory (R79). -/
def modRmRegs (b : Byte) : Option (BitVec 3 × BitVec 3) :=
  if b.extractLsb' 6 2 = 3 then some (b.extractLsb' 3 3, b.extractLsb' 0 3) else none

/-- The `/r` forms: A1 = rm and A2 = reg when d = 0, the other way round when d = 1 (R79). -/
def regRegForm (o : AluOp) (op : Byte) : List Byte → Option Instr
  | m :: _ => do
    let (reg, rm) ← modRmRegs m
    let w := op.getLsbD 0
    if op.getLsbD 1 then some (o.instr 2 (regOfField w reg) (.reg (regOfField w rm)))
    else some (o.instr 2 (regOfField w rm) (.reg (regOfField w reg)))
  | [] => none

/-- An immediate that follows `before` bytes: `ib`, or `iw` low byte first (R79). -/
def immForm (o : AluOp) (d : Reg) (before : Len) (wide : Bool) (bs : List Byte) : Option Instr :=
  match wide, bs with
  | false, b :: _ => some (o.instr (before + 1) d (.imm (.imm8 b)))
  | true, lo :: hi :: _ => some (o.instr (before + 2) d (.imm (.imm16 (hi ++ lo))))
  | _, _ => none

/-- The forms `80 /n ib`, `81 /n iw` and `83 /n ib`, the last with w = 1 (R79). -/
def groupForm (op : Byte) : List Byte → Option Instr
  | m :: rest => do
    let (field, rm) ← modRmRegs m
    let o ← groupOp field
    immForm o (regOfField (op.getLsbD 0) rm) 2 (op.getLsbD 0 && !op.getLsbD 1) rest
  | [] => none

/-- `C6 /0 ib` and `C7 /0 iw` (R79). -/
def movImmForm (op : Byte) : List Byte → Option Instr
  | m :: rest => do
    let (field, rm) ← modRmRegs m
    if field = 0 then immForm .mov (regOfField (op.getLsbD 0) rm) 2 (op.getLsbD 0) rest else none
  | [] => none

/-- The jump forms, one displacement byte (R79). -/
def jumpForm (j : JumpOp) : List Byte → Option Instr
  | b :: _ => some (j.instr 2 b)
  | [] => none

/-- The instruction a byte sequence begins with, its length counted, or none where R79 lists no form. -/
def readBytes : List Byte → Option Instr
  | [] => none
  | op :: rest =>
    let n := op.toNat
    if n = 0x72 then jumpForm .jc rest
    else if n = 0x74 then jumpForm .jz rest
    else if n = 0x75 then jumpForm .jnz rest
    else if n = 0x7A then jumpForm .jp rest
    else if n = 0xE0 then jumpForm .loopnz rest
    else if n = 0x80 ∨ n = 0x81 ∨ n = 0x83 then groupForm op rest
    else if 0x88 ≤ n ∧ n ≤ 0x8B then regRegForm .mov op rest
    else if 0xB0 ≤ n ∧ n ≤ 0xBF then
      immForm .mov (regOfField (op.getLsbD 3) (op.extractLsb' 0 3)) 1 (op.getLsbD 3) rest
    else if n = 0xC6 ∨ n = 0xC7 then movImmForm op rest
    else if n < 0x40 then
      match groupOp (op.extractLsb' 3 3) with
      | none => none
      | some o =>
        if n % 8 < 4 then regRegForm o op rest
        else if n % 8 < 6 then immForm o (regOfField (op.getLsbD 0) 0) 1 (op.getLsbD 0) rest
        else none
    else none

/-- The state with an instruction at an address of the front end's program, its record encoded. -/
def State.loadInstr (s : State) (a : Word) (i : Instr) : State := s.load a (encode i) i.len

end Sys2Proof.Machine
end

