-- ==== Sys2Proof/Machine/Port.lean ====
section
/-! DEFINITION. The block's outputs as the interface numbers them (spec 70_reset_and_hazards.md rule R153,
60_exceptions.md rule R130). -/

namespace Sys2Proof.Machine

/-- The number of a fault code at the port (R130). -/
def faultCodeNumber : FaultCode → BitVec 4
  | .none => 0
  | .unsupportedOpcode => 1
  | .unsupportedMemorySource => 2
  | .unsupportedInvalidSource => 3
  | .invalidDestination => 4
  | .unimplemented => 5
  | .invalidOperand => 6
  | .grammarViolation => 7

/-- The two error classes, and none for code 0 (R130). -/
inductive FaultClass where
  | none
  /-- A contract violation. -/
  | invalid
  /-- A declared-unimplemented capability. -/
  | notImplemented
deriving DecidableEq, Repr

/-- A fault code's class (R130). -/
def faultClass : FaultCode → FaultClass
  | .none => .none
  | .unsupportedMemorySource | .unimplemented => .notImplemented
  | .unsupportedOpcode | .unsupportedInvalidSource | .invalidDestination | .invalidOperand
  | .grammarViolation => .invalid

/-- The number of a slot at the port (R11). -/
def slotNumber : Slot → BitVec 2
  | .opcode => 0
  | .operand1 => 1
  | .operand2 => 2
  | .attached => 3

/-- `obs.dest` at the port: a register index, or 16 for none (R153). -/
def obsDestNumber : Option Reg → BitVec 5
  | some r => r.idx.setWidth 5
  | none => 16

/-- The output signals (R153). `regs` is the 16 bytes of the register file. -/
structure Outputs where
  regs : RegFile
  ip : Word
  flags : Word
  halted : Bool
  faultCode : BitVec 4
  faultSlot : BitVec 2
  obsDest : BitVec 5
  obsPre : Word
  obsPost : Word
deriving DecidableEq, Repr

/-- What the block presents after its last commit (R39, R153). -/
def State.outputs (s : State) : Outputs where
  regs := s.regs
  ip := s.ip
  flags := s.flags
  halted := s.halted
  faultCode := faultCodeNumber s.fault.code
  faultSlot := slotNumber s.fault.slot
  obsDest := obsDestNumber s.obs.dest
  obsPre := s.obs.pre
  obsPost := s.obs.post

end Sys2Proof.Machine
end

