-- ==== Sys2Proof/Machine/RecordStep.lean ====
section
/-! DEFINITION. The spec's own pseudocode of a step, record by record: resolve, check in order, compute on integers, commit
(spec 40_execute_and_operands.md rules R85 to R99, 41_move.md R105, 42_arith.md R107 to R109, 43_control.md R111 to R116).
`transfer` goes through decoded instructions instead; that the two are equal is a statement of its own. -/

namespace Sys2Proof.Machine

/-- The first check that fails raises code 7 with the slot it names (R93, R94, R136). -/
def firstFailing : List (Bool × Slot) → Except FaultRecord Unit
  | [] => .ok ()
  | (true, _) :: rest => firstFailing rest
  | (false, slot) :: _ => .error (grammarFault slot)

/-- R93 check 1: A2 is a register or an immediate. -/
def isAluSource : Operand → Bool
  | .register _ _ | .immediate _ => true
  | .empty | .memoryDirect _ _ | .effectiveAddress _ _ _ | .relativeJump _ | .displacement _ | .invalid => false

/-- R93 checks 3 and 4: a register's declared width agrees with its index. -/
def declaredWidthOk : Operand → Bool
  | .register w r => decide (w = r.width)
  | .empty | .memoryDirect _ _ | .effectiveAddress _ _ _ | .immediate _ | .relativeJump _ | .displacement _
  | .invalid => true

/-- R93 checks 4 and 5: against the destination's width, a register source has it and an immediate is no wider. -/
def sourceFits (loc : Option Reg) (a2 : Operand) : Bool :=
  match loc with
  | none => true
  | some d =>
    match a2 with
    | .register _ r => decide (r.bits = d.bits)
    | .immediate i => decide (i.width.bits ≤ d.bits)
    | .empty | .memoryDirect _ _ | .effectiveAddress _ _ _ | .relativeJump _ | .displacement _ | .invalid => true

/-- The checks of R93, as a list. -/
def aluCheckList (a1 a2 a3 : Operand) (loc : Option Reg) : List (Bool × Slot) :=
  [ (isAluSource a2, .operand2),
    (loc.isSome, .operand1),
    (declaredWidthOk a1, .operand1),
    (declaredWidthOk a2, .operand2),
    (sourceFits loc a2, .operand2),
    (decide (a3 = .empty), .attached) ]

/-- R94 check 1: A1 is a relative jump. -/
def isRelativeJump : Operand → Bool
  | .relativeJump _ => true
  | .empty | .register _ _ | .memoryDirect _ _ | .effectiveAddress _ _ _ | .immediate _ | .displacement _
  | .invalid => false

/-- The checks of R94, as a list. -/
def jumpCheckList (a1 a2 a3 : Operand) : List (Bool × Slot) :=
  [ (isRelativeJump a1, .operand1),
    (decide (a2 = .empty), .operand2),
    (decide (a3 = .empty), .attached) ]

/-- `ip_seq` on integers (R88). -/
def ipSeqOf (s : State) (len : Len) : Word := BitVec.ofNat 16 (s.ip.toNat + len.toNat)

/-- The compute and commit stages of MOV, ADD, SUB and CMP (R105, R107 to R109). -/
def aluStage (o : AluOp) (len : Len) (d : Reg) (v : Work) (s : State) : State :=
  let sw : BitVec d.bits := BitVec.ofInt d.bits v.toInt
  let d0 := s.read d
  let sum : BitVec d.bits := BitVec.ofNat d.bits (d0.toNat + sw.toNat)
  let diff : BitVec d.bits := BitVec.ofInt d.bits ((d0.toNat : Int) - (sw.toNat : Int))
  match o with
  | .mov => s.commit (some ⟨d, sw⟩) none (ipSeqOf s len)
  | .add => s.commit (some ⟨d, sum⟩) (some (flagsAdd d0 sw sum)) (ipSeqOf s len)
  | .sub => s.commit (some ⟨d, diff⟩) (some (flagsSub d0 sw diff)) (ipSeqOf s len)
  | .cmp => s.commit none (some (flagsSub d0 sw diff)) (ipSeqOf s len)

/-- `target = (ip_seq + rel) mod 2^16` on integers (R111). -/
def targetOf (s : State) (len : Len) (rel : Work) : Word :=
  BitVec.ofInt 16 (((ipSeqOf s len).toNat : Int) + rel.toInt)

/-- The compute and commit stages of the jumps and LOOPNZ (R111 to R116). -/
def jumpStage (j : JumpOp) (len : Len) (rel : Work) (s : State) : State :=
  let go (taken : Bool) : Word := if taken then targetOf s len rel else ipSeqOf s len
  let cx : Word := BitVec.ofInt 16 (((s.rw .cx).toNat : Int) - 1)
  match j with
  | .jnz => s.commit none none (go (s.zf == false))
  | .jz => s.commit none none (go (s.zf == true))
  | .jp => s.commit none none (go (s.pf == true))
  | .jc => s.commit none none (go (s.cf == true))
  | .loopnz => s.commit (some ⟨.word .cx, cx⟩) none (go (decide (cx.toNat ≠ 0) && s.zf == false))

/-- The stages of MOV, ADD, SUB and CMP: the source is resolved from A2, the destination from A1, the grammar is
checked, and the step commits (R86, R89). -/
def aluRecord (o : AluOp) (len : Len) (a1 a2 a3 : Operand) (s : State) : Except FaultRecord State := do
  let v ← s.resolveSource a2 .operand2
  let loc ← resolveDestination a1 .operand1
  firstFailing (aluCheckList a1 a2 a3 loc)
  match loc with
  | some d => .ok (aluStage o len d v s)
  | none => .error (grammarFault .operand1)

/-- The stages of the jumps and LOOPNZ: the relative jump is resolved from A1 (R86, R89). -/
def jumpRecord (j : JumpOp) (len : Len) (a1 a2 a3 : Operand) (s : State) : Except FaultRecord State := do
  let rel ← s.resolveSource a1 .operand1
  firstFailing (jumpCheckList a1 a2 a3)
  .ok (jumpStage j len rel s)

/-- The outcome of a record: a new state or a fault, never both (R85). -/
def recordOutcome (r : Record) (len : Len) (s : State) : Except FaultRecord State :=
  let a1 := Operand.ofBits (Record.a1 r)
  let a2 := Operand.ofBits (Record.a2 r)
  let a3 := Operand.ofBits (Record.a3 r)
  match Opcode.ofTag (Record.op r) with
  | none => .error ⟨.unsupportedOpcode, .opcode⟩
  | some (.alu o) => aluRecord o len a1 a2 a3 s
  | some (.jump j) => jumpRecord j len a1 a2 a3 s

/-- `step(st, rec, len)` as R85 writes it. -/
def recordStep (r : Record) (len : Len) (s : State) : State :=
  if s.halted then s
  else
    match recordOutcome r len s with
    | .ok t => t
    | .error f => s.takeFault f

end Sys2Proof.Machine
end

