-- ==== Sys2Proof/Safety.lean ====
section
/-! DEFINITION. The terms claims use: what a step leaves alone, the flags on integers, the invariant, and a record's raw
bits. Nothing of the machine calls this file. -/

namespace Sys2Proof

/-- Two registers share a bit of storage: a byte register and the word register it is half of, or equal ones (R22). -/
def Reg.overlaps : Reg → Reg → Bool
  | .byte a, .byte b => a == b
  | .byte a, .word r => a.parent == r
  | .word r, .byte a => a.parent == r
  | .word a, .word b => a == b

namespace Safety

open Sys2Proof.Machine

/-! ### Frames -/

/-- Every register that shares nothing with `d` keeps its value. -/
def RegsKeptBut (d : Reg) (s t : State) : Prop := ∀ r : Reg, d.overlaps r = false → t.read r = s.read r

/-- Every register keeps its value. -/
def RegsKept (s t : State) : Prop := ∀ r : Reg, t.read r = s.read r

/-- `halted`, the fault record, the front end's program and the `reset` input are as before. -/
def ControlKept (s t : State) : Prop :=
  t.halted = s.halted ∧ t.fault = s.fault ∧ t.program = s.program ∧ t.resetIn = s.resetIn

/-- The bits of `flags` that hold no flag are as before (R34). -/
def ReservedFlagsKept (s t : State) : Prop :=
  ∀ n : Nat, n ∉ [0, 2, 4, 6, 7, 11] → t.flags.getLsbD n = s.flags.getLsbD n

/-- `ip` is the advanced one: `(ip + len) mod 2^16` (R88). -/
def Advanced (len : Len) (s t : State) : Prop := t.ip.toNat = (s.ip.toNat + len.toNat) % 2 ^ 16

/-- `ip` is a taken jump's target: `(ip + len + rel) mod 2^16`, `rel` signed (R111). -/
def JumpedBy (len : Len) (rel : Byte) (s t : State) : Prop :=
  (t.ip.toNat : Int) = ((s.ip.toNat : Int) + len.toNat + rel.toInt) % 2 ^ 16

/-- `ip` is `(address_of_jump + N) mod 2^16`, where N is the written offset `$+N` and the jump stood at `ip` (R81). -/
def AtWrittenOffset (rel : Byte) (s t : State) : Prop :=
  (t.ip.toNat : Int) = ((s.ip.toNat : Int) + writtenOffset rel) % 2 ^ 16

/-- The observation of a step that wrote `d`: its name, and the containing word register before and after (R104). -/
def ObservedWrite (d : Reg) (s t : State) : Prop :=
  t.obs = { dest := some d, pre := s.rw (container d), post := t.rw (container d) }

/-! ### The flags, on integers -/

/-- How many of the low eight bits of a value are 1. -/
def onesInLowByte (n : Nat) : Nat := (List.range 8).countP fun i => n.testBit i

/-- What the six flags are after the W-bit addition `a + b`: carry and auxiliary carry out of bits W-1 and 3, the result's
zero, sign and low-byte parity, and whether the signed sum falls outside the W-bit range. -/
def AddFlags {w : Nat} (a b : BitVec w) (f : FlagBits) : Prop :=
  (f.cf = true ↔ 2 ^ w ≤ a.toNat + b.toNat) ∧
  (f.pf = true ↔ onesInLowByte ((a.toNat + b.toNat) % 2 ^ w) % 2 = 0) ∧
  (f.af = true ↔ 16 ≤ a.toNat % 16 + b.toNat % 16) ∧
  (f.zf = true ↔ (a.toNat + b.toNat) % 2 ^ w = 0) ∧
  (f.sf = true ↔ 2 ^ (w - 1) ≤ (a.toNat + b.toNat) % 2 ^ w) ∧
  (f.ovf = true ↔ (a.toInt + b.toInt < -2 ^ (w - 1) ∨ 2 ^ (w - 1) ≤ a.toInt + b.toInt))

/-- What the six flags are after the W-bit subtraction `a - b`: borrow and low-nibble borrow, the result's zero, sign and
low-byte parity, and whether the signed difference falls outside the W-bit range. -/
def SubFlags {w : Nat} (a b : BitVec w) (f : FlagBits) : Prop :=
  (f.cf = true ↔ a.toNat < b.toNat) ∧
  (f.pf = true ↔ onesInLowByte ((2 ^ w + a.toNat - b.toNat) % 2 ^ w) % 2 = 0) ∧
  (f.af = true ↔ a.toNat % 16 < b.toNat % 16) ∧
  (f.zf = true ↔ a.toNat = b.toNat) ∧
  (f.sf = true ↔ 2 ^ (w - 1) ≤ (2 ^ w + a.toNat - b.toNat) % 2 ^ w) ∧
  (f.ovf = true ↔ (a.toInt - b.toInt < -2 ^ (w - 1) ∨ 2 ^ (w - 1) ≤ a.toInt - b.toInt))

/-! ### The effect of each arithmetic form, given the source at the destination's width -/

/-- What a step that moves `v` into `d` leaves. -/
def Moved (len : Len) (d : Reg) (v : BitVec d.bits) (s t : State) : Prop :=
  t.read d = v ∧ t.flags = s.flags ∧ Advanced len s t ∧ ObservedWrite d s t ∧ RegsKeptBut d s t ∧ ControlKept s t

/-- What a step that adds `v` to `d` leaves. -/
def Added (len : Len) (d : Reg) (v : BitVec d.bits) (s t : State) : Prop :=
  (t.read d).toNat = ((s.read d).toNat + v.toNat) % 2 ^ d.bits ∧ AddFlags (s.read d) v t.flagBits ∧
    ReservedFlagsKept s t ∧ Advanced len s t ∧ ObservedWrite d s t ∧ RegsKeptBut d s t ∧ ControlKept s t

/-- What a step that subtracts `v` from `d` leaves. -/
def Subtracted (len : Len) (d : Reg) (v : BitVec d.bits) (s t : State) : Prop :=
  (t.read d).toNat = (2 ^ d.bits + (s.read d).toNat - v.toNat) % 2 ^ d.bits ∧
    SubFlags (s.read d) v t.flagBits ∧
    ReservedFlagsKept s t ∧ Advanced len s t ∧ ObservedWrite d s t ∧ RegsKeptBut d s t ∧ ControlKept s t

/-- What a step that compares `d` with `v` leaves: flags and `ip` alone. -/
def Compared (len : Len) (d : Reg) (v : BitVec d.bits) (s t : State) : Prop :=
  SubFlags (s.read d) v t.flagBits ∧ ReservedFlagsKept s t ∧ Advanced len s t ∧ t.obs.dest = none ∧
    RegsKept s t ∧ ControlKept s t

/-- What a conditional jump leaves: `ip` alone, by its condition. -/
def Jumped (len : Len) (rel : Byte) (taken : Bool) (s t : State) : Prop :=
  (taken = true → JumpedBy len rel s t) ∧ (taken = false → Advanced len s t) ∧
    t.flags = s.flags ∧ t.obs.dest = none ∧ RegsKept s t ∧ ControlKept s t

/-- An immediate's W-bit pattern: sign-extended from its own width (R70, R96). -/
def immPattern (w : Nat) : Imm → BitVec w
  | .imm8 v => v.signExtend w
  | .imm16 v => v.signExtend w

/-- The destination operand of an ADD, SUB or CMP. -/
def arithDest : Instr → Option Reg
  | .addRR _ d _ | .addRI _ d _ | .subRR _ d _ | .subRI _ d _ | .cmpRR _ d _ | .cmpRI _ d _ => some d
  | .movRR .. | .movRI .. | .jnz .. | .jz .. | .jp .. | .jc .. | .loopnz .. => none

/-- Whether an instruction is ADD. -/
def isAdd (i : Instr) : Bool := i.opcode == .alu .add

/-- `S_W`, the source's pattern at the destination's width (R96). -/
def sourcePattern (s : State) (d : Reg) : Instr → BitVec d.bits
  | .movRR _ _ r | .addRR _ _ r | .subRR _ _ r | .cmpRR _ _ r => (s.read r).setWidth d.bits
  | .movRI _ _ i | .addRI _ _ i | .subRI _ _ i | .cmpRI _ _ i => immPattern d.bits i
  | .jnz .. | .jz .. | .jp .. | .jc .. | .loopnz .. => 0

/-- `D1`, the W-bit result of an ADD, SUB or CMP (R107 to R109). -/
def arithResult (s : State) (d : Reg) (i : Instr) : BitVec d.bits :=
  if isAdd i then s.read d + sourcePattern s d i else s.read d - sourcePattern s d i

/-- The six flags the flag unit computes for an ADD, SUB or CMP from D0, S_W and D1: `flags_add` for ADD, `flags_sub` for SUB
and CMP (R121 to R126). -/
def unitFlags (s : State) (d : Reg) (i : Instr) : FlagBits :=
  if isAdd i then flagsAdd (s.read d) (sourcePattern s d i) (arithResult s d i)
  else flagsSub (s.read d) (sourcePattern s d i) (arithResult s d i)

/-- The register an instruction's commit writes, if any (R104). -/
def writtenReg : Instr → Option Reg
  | .movRR _ d _ | .movRI _ d _ | .addRR _ d _ | .addRI _ d _ | .subRR _ d _ | .subRI _ d _ => some d
  | .loopnz .. => some (.word .cx)
  | .cmpRR .. | .cmpRI .. | .jnz .. | .jz .. | .jp .. | .jc .. => none

/-- The displacement byte of a jump or LOOPNZ. -/
def relOf : Instr → Option Byte
  | .jnz _ b | .jz _ b | .jp _ b | .jc _ b | .loopnz _ b => some b
  | .movRR .. | .movRI .. | .addRR .. | .addRI .. | .subRR .. | .subRI .. | .cmpRR .. | .cmpRI .. => none

/-! ### The invariant -/

/-- The (code, slot) pairs of R130's table. -/
def legalFault (f : FaultRecord) : Bool :=
  match f.code, f.slot with
  | .none, .opcode => true
  | .unsupportedOpcode, .opcode => true
  | .unsupportedMemorySource, .operand1 | .unsupportedMemorySource, .operand2 => true
  | .unsupportedInvalidSource, .operand1 | .unsupportedInvalidSource, .operand2 => true
  | .invalidDestination, .operand1 | .unimplemented, .operand1 | .invalidOperand, .operand1 => true
  | .grammarViolation, .operand1 | .grammarViolation, .operand2 | .grammarViolation, .attached => true
  | _, _ => false

/-- The bits of `flags` that hold no flag are 0 (R34). -/
def reservedFlagsZero (s : State) : Prop := ∀ n : Nat, n ∉ [0, 2, 4, 6, 7, 11] → s.flags.getLsbD n = false

/-- What every state the block can be in has: reserved flag bits 0; halted exactly when a fault is recorded, with a pair of
R130's table; an observation whose `post` is the register's present value; the front end's program in its form. -/
structure Inv (s : State) : Prop where
  reserved : reservedFlagsZero s
  haltedIffFault : s.halted = true ↔ s.fault.code ≠ .none
  legal : legalFault s.fault = true
  observed : ∀ d : Reg, s.obs.dest = some d → s.obs.post = s.rw (container d)
  program : Program.wf s.program = true

/-! ### The raw bits of a record (R65, R66, R84) -/

/-- `rec[3:0]`. -/
def opBits (r : Record) : Nat := (r.extractLsb' 0 4).toNat

/-- A1.kind, `rec[6:4]`. -/
def kind1 (r : Record) : Nat := (r.extractLsb' 4 3).toNat

/-- A2.kind, `rec[38:36]`. -/
def kind2 (r : Record) : Nat := (r.extractLsb' 36 3).toNat

/-- A3.kind, `rec[70:68]`. -/
def kind3 (r : Record) : Nat := (r.extractLsb' 68 3).toNat

/-- A1.w, bit 3 of A1. -/
def w1 (r : Record) : Bool := r.getLsbD 7

/-- A1.idx[3], bit 8 of A1: the index is in the word range. -/
def wide1 (r : Record) : Bool := r.getLsbD 12

/-- A2.w, bit 3 of A2. -/
def w2 (r : Record) : Bool := r.getLsbD 39

/-- A2.idx[3], bit 8 of A2. -/
def wide2 (r : Record) : Bool := r.getLsbD 44

/-- The admitted MOV, ADD, SUB and CMP records (R75). -/
def admittedAlu (r : Record) : Prop :=
  opBits r ≤ 3 ∧ kind1 r = 1 ∧ w1 r = wide1 r ∧ kind3 r = 0 ∧
    ((kind2 r = 1 ∧ w2 r = wide2 r ∧ wide2 r = wide1 r) ∨ (kind2 r = 4 ∧ (w2 r = true → wide1 r = true)))

/-- The admitted jump and LOOPNZ records (R75). -/
def admittedJump (r : Record) : Prop :=
  4 ≤ opBits r ∧ opBits r ≤ 8 ∧ kind1 r = 5 ∧ kind2 r = 0 ∧ kind3 r = 0

/-- The bits of a descriptor that rules R67 to R72 let a result depend on: the kind; a register's width bit and index; an
immediate's width bit and the value at that width; a relative jump's byte. All else is ignored (R73, R68). -/
def heededBits (d : BitVec 32) : BitVec 32 :=
  if d.extractLsb' 0 3 = 1 then 0x000001EF
  else if d.extractLsb' 0 3 = 4 then (if d.getLsbD 3 then 0xFFFF000F else 0x00FF000F)
  else if d.extractLsb' 0 3 = 5 then 0x00FF0007
  else 0x00000007

/-- A descriptor with every ignored bit 0. -/
def heeded (d : BitVec 32) : BitVec 32 := d &&& heededBits d

/-- A record with every ignored bit 0. -/
def heededRecord (r : Record) : Record :=
  heeded (r.extractLsb' 68 32) ++ (heeded (r.extractLsb' 36 32) ++ (heeded (r.extractLsb' 4 32) ++ r.extractLsb' 0 4))

/-- The state a fault leaves: `halted` and the fault record written, all else as before (R103, R138). -/
def haltedWith (s : State) (code : FaultCode) (slot : Slot) : State :=
  { regs := s.regs, ip := s.ip, flags := s.flags, halted := true, fault := { code := code, slot := slot }, obs := s.obs,
    program := s.program, resetIn := s.resetIn, freeDraws := s.freeDraws }

/-! ### Repeating one instruction -/

/-- The state after an instruction has run `n` times, if it ran each time. -/
def execTimes (i : Instr) : Nat → State → Option State
  | 0, s => some s
  | n + 1, s =>
    match execTimes i n s with
    | some t => (match exec i t with | .next u => some u | _ => none)
    | none => none

/-- How many times LOOPNZ runs before it falls through, from a counter value, while ZF stays 0 (R117). -/
def loopCount (cx : Word) : Nat := if cx = 0 then 65536 else cx.toNat

end Safety

end Sys2Proof
end

