-- ==== Sys2Proof/Certificates/Slice0/Obligations.lean ====
section
/-! DEFINITION. The statements about the 8086 ALU/flags block. Each docstring names the rule of spec/ it formalises. -/

open Sys2Proof Sys2Proof.Machine Sys2Proof.Safety

/-! ### Reset, halting, and the step -/

/-- R40: reset sets every register, `ip`, `flags`, `halted` and the fault record to zero. -/
def Obligations.ResetStateIsAllZero : Prop :=
  (∀ k : Fin 16, State.reset.regs.get k = 0) ∧ (∀ r : WordReg, State.reset.rw r = 0) ∧
    (∀ b : ByteReg, State.reset.rb b = 0) ∧ State.reset.ip = 0 ∧ State.reset.flags = 0 ∧
    State.reset.halted = false ∧ State.reset.outputs.faultCode = 0 ∧ State.reset.outputs.faultSlot = 0

/-- R151: the `reset` input, in any state and halted or not, gives the reset values, observation included, and no other
step clears `halted`. -/
def Obligations.ResetInputGivesResetState : Prop :=
  (∀ s : State, s.resetIn = true → ∃ t, step s = .next t ∧ (∀ k : Fin 16, t.regs.get k = 0) ∧
    (∀ r : WordReg, t.rw r = 0) ∧ (∀ b : ByteReg, t.rb b = 0) ∧ t.ip = 0 ∧ t.flags = 0 ∧
    t.halted = false ∧ t.outputs.faultCode = 0 ∧ t.outputs.faultSlot = 0 ∧ t.outputs.obsDest = 16 ∧
    t.obs.pre = 0 ∧ t.obs.post = 0) ∧
  (∀ s t : State, s.halted = true → step s = .next t → t.halted = false → s.resetIn = true)

/-- R87: while halted, no record is consumed and no state changes, whatever is supplied; only reset clears `halted`. -/
def Obligations.HaltedBlockTakesNoStep : Prop :=
  (∀ (s : State) (r : Record) (len : Len), s.halted = true → transfer r len s = .next s) ∧
  (∀ s : State, s.halted = true → s.resetIn = false → step s = .next s) ∧
  (∀ s t : State, s.halted = true → step s = .next t → t.halted = false → s.resetIn = true)

/-- When the record supplied at `ip` decodes to an instruction and neither `halted` nor the `reset` input is set, the step
is the meaning of that instruction, and nothing is added around it. -/
def Obligations.StepRunsDecodedInstruction : Prop :=
  ∀ (s : State) (p : ProgramSlot) (i : Instr), s.halted = false → s.resetIn = false →
    s.supplied = some p → decode p.record p.len = .ok i → step s = exec i s

/-- Where the front end supplies no record (R155: END_OF_PROGRAM), the block takes no step. That this is a next state equal
to the present one is the model's choice (notes/assumptions/3.md). -/
def Obligations.NoRecordNoChange : Prop :=
  ∀ s : State, s.resetIn = false → s.supplied = none → step s = .next s

/-- A word placed by `withFetchWord` is the very next one transferred: the record in bits 99..0, the length input in bits
103..100 (the model's choice, notes/assumptions/4.md). -/
def Obligations.FetchWordRunsNext : Prop :=
  ∀ (s : State) (w : Nat), w < 2 ^ 104 →
    step (s.withFetchWord 104 w) =
      transfer (BitVec.ofNat 100 w) (BitVec.ofNat 4 (w / 2 ^ 100)) (s.withFetchWord 104 w)

/-- Every step answers a next state: no state and no record ends in a fault or a refusal outside the state (R138, R160). That
a step with no record, or while halted, is one too is the model's reading (notes/assumptions/2.md, 3.md). -/
def Obligations.EveryStepHasNextState : Prop := ∀ s : State, ∃ t, step s = .next t

/-- A step that is supplied a record while neither halted nor reset halts the block exactly when the record is outside the
grammar; an admitted one never halts it. -/
def Obligations.OnlyFaultsHalt : Prop :=
  ∀ (s t : State) (p : ProgramSlot), s.halted = false → s.resetIn = false → s.supplied = some p →
    step s = .next t → (t.halted = true ↔ ∃ f, decode p.record p.len = .error f)

/-! ### Registers -/

/-- R24 and R25: a word read is the bytes at 2r+1 and 2r of the buffer, a byte read the byte at `boff(i)`. -/
def Obligations.RegisterReadsOfBuffer : Prop :=
  (∀ (s : State) (r : WordReg) (lo hi : Fin 16), lo.val = 2 * r.num.toNat → hi.val = 2 * r.num.toNat + 1 →
    s.rw r = s.regs.get hi ++ s.regs.get lo) ∧
  (∀ (s : State) (b : ByteReg) (k : Fin 16),
    k.val = (if b.num.toNat < 4 then 2 * b.num.toNat else 2 * (b.num.toNat - 4) + 1) → s.rb b = s.regs.get k)

/-- R26: a word write changes bytes 2r and 2r+1 of the buffer and no other byte, a byte write the byte at `boff(i)` alone; so
a byte write changes that byte register, no other, and of a word register only the half it is, and a word write no other
word register. -/
def Obligations.WritesChangeExactlyTheirBytes : Prop :=
  (∀ (f : RegFile) (r : WordReg) (v : Word) (k : Fin 16), (RegFile.setRw f r v).get k =
    if k.val = 2 * r.num.toNat then v.extractLsb' 0 8
    else if k.val = 2 * r.num.toNat + 1 then v.extractLsb' 8 8 else f.get k) ∧
  (∀ (f : RegFile) (b : ByteReg) (v : Byte) (k : Fin 16), (RegFile.setRb f b v).get k =
    if k.val = (if b.num.toNat < 4 then 2 * b.num.toNat else 2 * (b.num.toNat - 4) + 1) then v else f.get k) ∧
  (∀ (f : RegFile) (b : ByteReg) (v : Byte), RegFile.rb (RegFile.setRb f b v) b = v) ∧
  (∀ (f : RegFile) (b c : ByteReg) (v : Byte), c ≠ b → RegFile.rb (RegFile.setRb f b v) c = RegFile.rb f c) ∧
  (∀ (f : RegFile) (b : ByteReg) (v : Byte), RegFile.rw (RegFile.setRb f b v) b.parent =
    if b.isHigh then v ++ (RegFile.rw f b.parent).extractLsb' 0 8
    else (RegFile.rw f b.parent).extractLsb' 8 8 ++ v) ∧
  (∀ (f : RegFile) (b : ByteReg) (r : WordReg) (v : Byte), b.parent ≠ r →
    RegFile.rw (RegFile.setRb f b v) r = RegFile.rw f r) ∧
  (∀ (f : RegFile) (r : WordReg) (v : Word), RegFile.rw (RegFile.setRw f r v) r = v) ∧
  (∀ (f : RegFile) (r q : WordReg) (v : Word), q ≠ r → RegFile.rw (RegFile.setRw f r v) q = RegFile.rw f q)

/-- R27: the 16 indices name 16 registers, each one once; 0 to 7 are the byte registers and 8 to 15 the word registers in
their order, and a read or a write goes to the register the index names. -/
def Obligations.IndexSpaceNamesEveryRegister : Prop :=
  (∀ i : BitVec 4, (Reg.ofIdx i).idx = i) ∧ (∀ r : Reg, Reg.ofIdx r.idx = r) ∧
  (∀ i : BitVec 4, (Reg.ofIdx i).bits = if i.toNat < 8 then 8 else 16) ∧
  (∀ b : ByteReg, (Reg.byte b).idx.toNat = b.num.toNat) ∧
  (∀ r : WordReg, (Reg.word r).idx.toNat = 8 + r.num.toNat) ∧
  (∀ (s : State) (b : ByteReg), s.read (.byte b) = s.rb b) ∧
  (∀ (s : State) (r : WordReg), s.read (.word r) = s.rw r) ∧
  (∀ (f : RegFile) (b : ByteReg) (v : Byte), RegFile.write f (.byte b) v = RegFile.setRb f b v) ∧
  (∀ (f : RegFile) (r : WordReg) (v : Word), RegFile.write f (.word r) v = RegFile.setRw f r v)

/-! ### What each instruction does, and its frame -/

/-- MOV reg, reg completes: the destination takes the source's value, `ip` passes the instruction, nothing else changes. -/
def Obligations.MovRegisterCopies : Prop :=
  ∀ (len : Len) (d r : Reg) (s : State), d.width = r.width →
    ∃ t, exec (.movRR len d r) s = .next t ∧ Moved len d ((s.read r).setWidth d.bits) s t

/-- MOV reg, imm completes: the destination takes the immediate, sign-extended to the destination's width. -/
def Obligations.MovImmediateExtends : Prop :=
  ∀ (len : Len) (d : Reg) (i : Imm) (s : State), i.width.bits ≤ d.bits →
    ∃ t, exec (.movRI len d i) s = .next t ∧ Moved len d (immPattern d.bits i) s t

/-- ADD reg, reg completes: the W-bit sum, all six flags of it, `ip`, and nothing else. -/
def Obligations.AddRegisterSum : Prop :=
  ∀ (len : Len) (d r : Reg) (s : State), d.width = r.width →
    ∃ t, exec (.addRR len d r) s = .next t ∧ Added len d ((s.read r).setWidth d.bits) s t

/-- ADD reg, imm completes: the W-bit sum with the sign-extended immediate, all six flags of it, `ip`, and nothing else. -/
def Obligations.AddImmediateSum : Prop :=
  ∀ (len : Len) (d : Reg) (i : Imm) (s : State), i.width.bits ≤ d.bits →
    ∃ t, exec (.addRI len d i) s = .next t ∧ Added len d (immPattern d.bits i) s t

/-- SUB reg, reg completes: the W-bit difference, all six flags of it, `ip`, and nothing else. -/
def Obligations.SubRegisterDifference : Prop :=
  ∀ (len : Len) (d r : Reg) (s : State), d.width = r.width →
    ∃ t, exec (.subRR len d r) s = .next t ∧ Subtracted len d ((s.read r).setWidth d.bits) s t

/-- SUB reg, imm completes: the W-bit difference with the sign-extended immediate, all six flags, `ip`, and nothing else. -/
def Obligations.SubImmediateDifference : Prop :=
  ∀ (len : Len) (d : Reg) (i : Imm) (s : State), i.width.bits ≤ d.bits →
    ∃ t, exec (.subRI len d i) s = .next t ∧ Subtracted len d (immPattern d.bits i) s t

/-- CMP reg, reg completes: the flags of the difference and `ip`; every register keeps its value. -/
def Obligations.CmpRegisterFlagsOnly : Prop :=
  ∀ (len : Len) (d r : Reg) (s : State), d.width = r.width →
    ∃ t, exec (.cmpRR len d r) s = .next t ∧ Compared len d ((s.read r).setWidth d.bits) s t

/-- CMP reg, imm completes: the flags of the difference and `ip`; every register keeps its value. -/
def Obligations.CmpImmediateFlagsOnly : Prop :=
  ∀ (len : Len) (d : Reg) (i : Imm) (s : State), i.width.bits ≤ d.bits →
    ∃ t, exec (.cmpRI len d i) s = .next t ∧ Compared len d (immPattern d.bits i) s t

/-- JNZ, JZ, JP and JC complete: taken iff ZF = 0, ZF = 1, PF = 1, CF = 1; a taken one adds its displacement to the advanced
`ip`, and no register and no flag changes. -/
def Obligations.ConditionalJumps : Prop :=
  ∀ (len : Len) (rel : Byte) (s : State),
    (∃ t, exec (.jnz len rel) s = .next t ∧ Jumped len rel (!s.zf) s t) ∧
    (∃ t, exec (.jz len rel) s = .next t ∧ Jumped len rel s.zf s t) ∧
    (∃ t, exec (.jp len rel) s = .next t ∧ Jumped len rel s.pf s t) ∧
    (∃ t, exec (.jc len rel) s = .next t ∧ Jumped len rel s.cf s t)

/-- LOOPNZ completes: CX is decremented always, the jump is taken iff the new CX is not 0 and ZF is 0, and no flag and no
other register changes. -/
def Obligations.LoopnzDecrementsAndLoops : Prop :=
  ∀ (len : Len) (rel : Byte) (s : State), ∃ t, exec (.loopnz len rel) s = .next t ∧
    ((t.rw .cx).toNat : Int) = (((s.rw .cx).toNat : Int) - 1) % 2 ^ 16 ∧
    (t.rw .cx ≠ 0 ∧ s.zf = false → JumpedBy len rel s t) ∧
    (¬(t.rw .cx ≠ 0 ∧ s.zf = false) → Advanced len s t) ∧
    t.flags = s.flags ∧ ObservedWrite (.word .cx) s t ∧ RegsKeptBut (.word .cx) s t ∧ ControlKept s t

/-- R117: LOOPNZ's corner cases: CX = 0 wraps to 0xFFFF and is taken if ZF = 0, so that LOOPNZ entered with CX = 0 runs 65536
times while ZF stays 0; CX = 1 is never taken; ZF = 1 is never taken and still decrements; ZF is as it was before, since the
step leaves it. -/
def Obligations.LoopnzCornerCases : Prop :=
  (∀ (len : Len) (rel : Byte) (s t : State), exec (.loopnz len rel) s = .next t →
    (s.rw .cx = 0 → t.rw .cx = 0xFFFF ∧ (s.zf = false → JumpedBy len rel s t)) ∧
    (s.rw .cx = 1 → t.rw .cx = 0 ∧ Advanced len s t) ∧
    (s.zf = true → t.rw .cx = s.rw .cx - 1 ∧ Advanced len s t) ∧ t.zf = s.zf) ∧
  (∀ (len : Len) (rel : Byte) (s : State), s.rw .cx = 0 → s.zf = false → ∀ n : Nat, n < 65536 →
    ∃ t u, execTimes (.loopnz len rel) n s = some t ∧ exec (.loopnz len rel) t = .next u ∧
      (n < 65535 → JumpedBy len rel t u) ∧ (n = 65535 → u.rw .cx = 0 ∧ Advanced len t u))

/-- LOOPNZ repeated while ZF is 0 (R117, R160): it runs CX times, 65536 times from CX = 0, is taken each time but the last,
and then falls through with CX = 0. -/
def Obligations.LoopnzRunsCounterTimes : Prop :=
  ∀ (len : Len) (rel : Byte) (s : State), s.zf = false →
    ∀ n : Nat, n < loopCount (s.rw .cx) →
      ∃ t u, execTimes (.loopnz len rel) n s = some t ∧ exec (.loopnz len rel) t = .next u ∧
        (u.rw .cx).toNat = loopCount (s.rw .cx) - (n + 1) ∧ u.flags = s.flags ∧
        (n + 1 < loopCount (s.rw .cx) → JumpedBy len rel t u) ∧
        (n + 1 = loopCount (s.rw .cx) → Advanced len t u)

/-- An instruction term outside the admitted widths takes fault code 7 at slot 2, in every state, a halted one too. The spec has
records and no such terms: that exec is defined on them and answers this fault is the model's choice, DESIGN CHOICE of
notes/assumptions/9.md, made to agree with the fault of R93 check 4 or 5 that such operands' record takes. -/
def Obligations.IllFormedInstructionFaults : Prop :=
  ∀ (i : Instr) (s : State), i.wellFormed = false → exec i s = .next (haltedWith s .grammarViolation .operand2)

/-! ### Rules over all instructions -/

/-- R35: only ADD, SUB and CMP write flags: every other instruction leaves the whole flags register; and each of these three
writes all six with its result, to the values the flag unit computes, whatever they were. -/
def Obligations.OnlyArithmeticWritesFlags : Prop :=
  ∀ (i : Instr) (s : State), i.wellFormed = true → ∃ t, exec i s = .next t ∧
    (arithDest i = none → t.flags = s.flags) ∧
    (∀ d : Reg, arithDest i = some d → t.flagBits =
      if isAdd i then flagsAdd (s.read d) (sourcePattern s d i) (arithResult s d i)
      else flagsSub (s.read d) (sourcePattern s d i) (arithResult s d i))

/-- R34: the bits of `flags` that hold no flag are 0 at reset, and no step writes them but reset, which makes them 0. -/
def Obligations.ReservedFlagBitsAreNotWritten : Prop :=
  reservedFlagsZero State.reset ∧
  (∀ s t : State, step s = .next t → s.resetIn = false → ReservedFlagsKept s t) ∧
  (∀ s t : State, step s = .next t → s.resetIn = true → reservedFlagsZero t)

/-- R104: `obs.dest` is the index of the register a commit wrote (A1's for MOV, ADD and SUB, 9 for LOOPNZ) or 16 for none (CMP
and the jumps); with a register, `obs.pre` and `obs.post` are its containing word before and after, word idx - 8 of a word
index, idx mod 4 of a byte index; a fault and a record supplied while halted leave the observation; after reset it is none
and zeros. -/
def Obligations.ObservationOfEachStep : Prop :=
  (∀ (i : Instr) (s : State), i.wellFormed = true → ∃ t, exec i s = .next t ∧
    t.outputs.obsDest = obsDestNumber (writtenReg i) ∧
    (writtenReg i = none → t.outputs.obsDest = 16) ∧
    (∀ d : Reg, writtenReg i = some d → t.outputs.obsDest.toNat = d.idx.toNat ∧
      ∀ r : WordReg, r.num.toNat = (if d.idx.toNat < 8 then d.idx.toNat % 4 else d.idx.toNat - 8) →
        t.outputs.obsPre = s.rw r ∧ t.outputs.obsPost = t.rw r)) ∧
  (∀ (s t : State) (r : Record) (len : Len) (f : FaultRecord), decode r len = .error f → transfer r len s = .next t →
    t.obs = s.obs) ∧
  (∀ (s t : State) (r : Record) (len : Len), s.halted = true → transfer r len s = .next t → t.obs = s.obs) ∧
  (∀ s t : State, s.resetIn = true → step s = .next t → t.outputs.obsDest = 16 ∧ t.outputs.obsPre = 0 ∧ t.outputs.obsPost = 0)

/-- R129: the six flags an ADD, SUB or CMP leaves depend on the operation, D0, S_W and W alone: two instructions of one opcode
and one width, whatever their forms, registers and lengths, that run on equal D0 and equal S_W, in any two states, whatever
the flags, `ip` and other registers there, leave the same six. -/
def Obligations.FlagUnitIsCombinational : Prop :=
  ∀ (i1 i2 : Instr) (d1 d2 : Reg) (s1 s2 : State), i1.wellFormed = true → i2.wellFormed = true →
    arithDest i1 = some d1 → arithDest i2 = some d2 → i1.opcode = i2.opcode → d1.width = d2.width →
    (s1.read d1).toNat = (s2.read d2).toNat →
    (sourcePattern s1 d1 i1).toNat = (sourcePattern s2 d2 i2).toNat →
    ∃ t1 t2, exec i1 s1 = .next t1 ∧ exec i2 s2 = .next t2 ∧ t1.flagBits = t2.flagBits

/-- R121, R122 and R125 for each ADD, SUB and CMP: ZF, SF and PF from the W-bit result D1. -/
def Obligations.ResultFlagsOfD1 : Prop :=
  ∀ (i : Instr) (d : Reg) (s : State), i.wellFormed = true → arithDest i = some d → ∃ t, exec i s = .next t ∧
    (t.zf = true ↔ arithResult s d i = 0) ∧
    t.sf = (arithResult s d i).getLsbD (d.bits - 1) ∧
    (t.pf = true ↔ onesInLowByte (arithResult s d i).toNat % 2 = 0)

/-- R123 for each ADD, SUB and CMP: OF from the sign of the source as it was combined, S for ADD and -S for SUB and CMP. -/
def Obligations.OverflowFromCombinedSign : Prop :=
  ∀ (i : Instr) (d : Reg) (s : State), i.wellFormed = true → arithDest i = some d → ∃ t, exec i s = .next t ∧
    (t.ovf = true ↔
      (((if isAdd i then (sourcePattern s d i).toInt else -(sourcePattern s d i).toInt) < 0) ↔
        (s.read d).getLsbD (d.bits - 1) = true) ∧
      (s.read d).getLsbD (d.bits - 1) ≠ (arithResult s d i).getLsbD (d.bits - 1))

/-- R124 and R126 for each ADD, SUB and CMP: the carry or borrow out of W bits and of the low nibble. -/
def Obligations.CarriesAndBorrows : Prop :=
  ∀ (i : Instr) (d : Reg) (s : State), i.wellFormed = true → arithDest i = some d → ∃ t, exec i s = .next t ∧
    (isAdd i = true → (t.cf = true ↔ 2 ^ d.bits ≤ (s.read d).toNat + (sourcePattern s d i).toNat) ∧
      (t.af = true ↔ 16 ≤ (s.read d).toNat % 16 + (sourcePattern s d i).toNat % 16)) ∧
    (isAdd i = false → (t.cf = true ↔ (s.read d).toNat < (sourcePattern s d i).toNat) ∧
      (t.af = true ↔ (s.read d).toNat % 16 < (sourcePattern s d i).toNat % 16))

/-- R128: the flag unit's OF, AF and CF equal their closed forms on W-bit patterns, at both widths. -/
def Obligations.FlagClosedForms : Prop :=
  ∀ (w : Width) (a b : BitVec w.bits),
    ((flagsAdd a b (a + b)).ovf = (((a ^^^ (a + b)) &&& (b ^^^ (a + b))).getLsbD (w.bits - 1))) ∧
    ((flagsAdd a b (a + b)).af = (a ^^^ b ^^^ (a + b)).getLsbD 4) ∧
    ((flagsAdd a b (a + b)).cf = decide ((a + b).toNat < a.toNat)) ∧
    ((flagsSub a b (a - b)).ovf = (((a ^^^ b) &&& (a ^^^ (a - b))).getLsbD (w.bits - 1))) ∧
    ((flagsSub a b (a - b)).af = (a ^^^ b ^^^ (a - b)).getLsbD 4) ∧
    ((flagsSub a b (a - b)).cf = decide (a.toNat < b.toNat))

/-- CMP leaves exactly the flags SUB leaves for the same operands, both forms (R109). For operands whose widths are not admitted
both leave them as they were, which is the model's choice (notes/assumptions/9.md). -/
def Obligations.CmpFlagsAreSubFlags : Prop :=
  (∀ (len : Len) (d r : Reg) (s t u : State), exec (.cmpRR len d r) s = .next t → exec (.subRR len d r) s = .next u →
    t.flags = u.flags ∧ t.ip = u.ip) ∧
  (∀ (len : Len) (d : Reg) (i : Imm) (s t u : State), exec (.cmpRI len d i) s = .next t →
    exec (.subRI len d i) s = .next u → t.flags = u.flags ∧ t.ip = u.ip)

/-- R97: at every admitted source the working value is the sign extension of its own W-bit pattern, so truncating to W
loses nothing. -/
def Obligations.WorkingValueFitsWidth : Prop :=
  (∀ (s : State) (d r : Reg), d.width = r.width →
    (truncTo d (s.sourceReg r)).signExtend 32 = s.sourceReg r ∧ (s.sourceReg r).toInt = (s.read r).toInt) ∧
  (∀ (d : Reg) (i : Imm), i.width.bits ≤ d.bits →
    (truncTo d (immValue i)).signExtend 32 = immValue i ∧ (immValue i).toInt = (truncTo d (immValue i)).toInt)

/-- R101: with one register as source and destination both values are the pre-step one: SUB gives 0, ADD doubles; and no
well-formed instruction has a byte and a word register as its operands. -/
def Obligations.SameRegisterTwice : Prop :=
  (∀ (len : Len) (d : Reg) (s t : State), exec (.subRR len d d) s = .next t →
    t.read d = 0 ∧ t.flagBits = ⟨false, true, false, true, false, false⟩) ∧
  (∀ (len : Len) (d : Reg) (s t : State), exec (.addRR len d d) s = .next t →
    (t.read d).toNat = 2 * (s.read d).toNat % 2 ^ d.bits) ∧
  (∀ (len : Len) (d : Reg) (s t : State), exec (.movRR len d d) s = .next t → RegsKept s t) ∧
  (∀ (len : Len) (b : ByteReg) (r : WordReg) (i : Instr),
    i ∈ [.movRR len (.byte b) (.word r), .movRR len (.word r) (.byte b), .addRR len (.byte b) (.word r),
      .addRR len (.word r) (.byte b), .subRR len (.byte b) (.word r), .subRR len (.word r) (.byte b),
      .cmpRR len (.byte b) (.word r), .cmpRR len (.word r) (.byte b)] → i.wellFormed = false)

/-- R102: the commit of a byte destination changes only its half of the containing word register; so after ADD AH, AL the
low half of AX is still AL. -/
def Obligations.ByteDestinationKeepsOtherHalf : Prop :=
  (∀ (i : Instr) (b c : ByteReg) (s t : State), i.a1 = (Reg.byte b).operand → exec i s = .next t → c ≠ b →
    t.rb c = s.rb c) ∧
  (∀ (len : Len) (s t : State), exec (.addRR len (.byte .ah) (.byte .al)) s = .next t →
    t.rb .al = s.rb .al ∧ t.rw .ax = t.rb .ah ++ s.rb .al)

/-- After CMP a, b, in either form, the JC that runs next is taken iff unsigned a is less than unsigned b (R115, R157): the
flags one step writes are the ones the next step tests. An immediate b is its sign extension to the width of a (R97). -/
def Obligations.JcAfterCmpIsUnsignedLess : Prop :=
  (∀ (len len' : Len) (d r : Reg) (rel : Byte) (s : State), d.width = r.width →
    ∃ t u, exec (.cmpRR len d r) s = .next t ∧ exec (.jc len' rel) t = .next u ∧
      ((s.read d).toNat < (s.read r).toNat → JumpedBy len' rel t u) ∧
      (¬ (s.read d).toNat < (s.read r).toNat → Advanced len' t u)) ∧
  (∀ (len len' : Len) (d : Reg) (i : Imm) (rel : Byte) (s : State), i.width.bits ≤ d.bits →
    ∃ t u, exec (.cmpRI len d i) s = .next t ∧ exec (.jc len' rel) t = .next u ∧
      ((s.read d).toNat < (immPattern d.bits i).toNat → JumpedBy len' rel t u) ∧
      (¬ (s.read d).toNat < (immPattern d.bits i).toNat → Advanced len' t u))

/-- A committed step leaves `ip` at one of two values: past the instruction, or, for a jump or LOOPNZ alone, that plus its
displacement (R30, R111). -/
def Obligations.InstructionPointerHasTwoOutcomes : Prop :=
  ∀ (i : Instr) (s : State), i.wellFormed = true → ∃ t, exec i s = .next t ∧
    (Advanced i.len s t ∨ ∃ rel, relOf i = some rel ∧ JumpedBy i.len rel s t)

/-- The written offset `$+N` of R81, N the signed displacement byte plus 2, is relative to the jump's own address: each of the
five control instructions of length 2, run at `ip` with its condition met, completes at `(ip + N) mod 2^16`. -/
def Obligations.WrittenOffsetNamesTheTarget : Prop :=
  ∀ (rel : Byte) (s : State),
    (s.zf = false → ∃ t, exec (.jnz 2 rel) s = .next t ∧ AtWrittenOffset rel s t) ∧
    (s.zf = true → ∃ t, exec (.jz 2 rel) s = .next t ∧ AtWrittenOffset rel s t) ∧
    (s.pf = true → ∃ t, exec (.jp 2 rel) s = .next t ∧ AtWrittenOffset rel s t) ∧
    (s.cf = true → ∃ t, exec (.jc 2 rel) s = .next t ∧ AtWrittenOffset rel s t) ∧
    (s.rw .cx ≠ 1 → s.zf = false → ∃ t, exec (.loopnz 2 rel) s = .next t ∧ AtWrittenOffset rel s t)

/-! ### Faults -/

/-- R103: a record that faults commits nothing: `halted` and the fault record are all that is written. -/
def Obligations.FaultCommitsNothing : Prop :=
  ∀ (r : Record) (len : Len) (f : FaultRecord) (s : State), decode r len = .error f → s.halted = false →
    transfer r len s = .next (haltedWith s f.code f.slot)

/-- R137: tags 9 to 15 fault with code 1 at slot 0, whatever the operands. -/
def Obligations.ReservedOpcodeFaults : Prop :=
  faultCodeNumber .unsupportedOpcode = 1 ∧ slotNumber .opcode = 0 ∧
  ∀ (r : Record) (len : Len) (s : State), 9 ≤ opBits r → s.halted = false →
    transfer r len s = .next (haltedWith s .unsupportedOpcode .opcode)

/-- R131: a memory source faults with code 2 at the source slot: A2 of MOV, ADD, SUB and CMP, A1 of a jump. -/
def Obligations.MemorySourceFaults : Prop :=
  faultCodeNumber .unsupportedMemorySource = 2 ∧ faultClass .unsupportedMemorySource = .notImplemented ∧
  slotNumber .operand1 = 1 ∧ slotNumber .operand2 = 2 ∧
  ∀ (r : Record) (len : Len) (s : State), s.halted = false →
    (opBits r ≤ 3 → kind2 r = 2 ∨ kind2 r = 3 →
      transfer r len s = .next (haltedWith s .unsupportedMemorySource .operand2)) ∧
    (4 ≤ opBits r → opBits r ≤ 8 → kind1 r = 2 ∨ kind1 r = 3 →
      transfer r len s = .next (haltedWith s .unsupportedMemorySource .operand1))

/-- R132: a displacement or invalid source faults with code 3 at the source slot. -/
def Obligations.InvalidSourceFaults : Prop :=
  faultCodeNumber .unsupportedInvalidSource = 3 ∧ faultClass .unsupportedInvalidSource = .invalid ∧
  slotNumber .operand1 = 1 ∧ slotNumber .operand2 = 2 ∧
  ∀ (r : Record) (len : Len) (s : State), s.halted = false →
    (opBits r ≤ 3 → kind2 r = 6 ∨ kind2 r = 7 →
      transfer r len s = .next (haltedWith s .unsupportedInvalidSource .operand2)) ∧
    (4 ≤ opBits r → opBits r ≤ 8 → kind1 r = 6 ∨ kind1 r = 7 →
      transfer r len s = .next (haltedWith s .unsupportedInvalidSource .operand1))

/-- R133, R134 and R135, each once the source has resolved (R139): a memory destination faults with code 5, an immediate one
with code 4, a relative-jump, displacement or invalid one with code 6, all at slot 1, CMP's too. -/
def Obligations.BadDestinationFaults : Prop :=
  faultCodeNumber .unimplemented = 5 ∧ faultClass .unimplemented = .notImplemented ∧
  faultCodeNumber .invalidDestination = 4 ∧ faultCodeNumber .invalidOperand = 6 ∧ slotNumber .operand1 = 1 ∧
  ∀ (r : Record) (len : Len) (s : State), s.halted = false → opBits r ≤ 3 → kind2 r ∈ [0, 1, 4, 5] →
    (kind1 r = 2 ∨ kind1 r = 3 → transfer r len s = .next (haltedWith s .unimplemented .operand1)) ∧
    (kind1 r = 4 → transfer r len s = .next (haltedWith s .invalidDestination .operand1)) ∧
    (kind1 r = 5 ∨ kind1 r = 6 ∨ kind1 r = 7 → transfer r len s = .next (haltedWith s .invalidOperand .operand1))

/-- R93 on a record's raw bits: once both operands of MOV, ADD, SUB or CMP have resolved, the six checks fail in their order,
code 7 with the slot of the first that fails; a record that passes them all decodes. -/
def Obligations.AluGrammarInOrder : Prop :=
  faultCodeNumber .grammarViolation = 7 ∧ slotNumber .operand1 = 1 ∧ slotNumber .operand2 = 2 ∧ slotNumber .attached = 3 ∧
  ∀ (r : Record) (len : Len), opBits r ≤ 3 → kind2 r ∈ [0, 1, 4, 5] → kind1 r ∈ [0, 1] →
    if kind2 r ≠ 1 ∧ kind2 r ≠ 4 then decode r len = .error ⟨.grammarViolation, .operand2⟩
    else if kind1 r ≠ 1 then decode r len = .error ⟨.grammarViolation, .operand1⟩
    else if w1 r ≠ wide1 r then decode r len = .error ⟨.grammarViolation, .operand1⟩
    else if kind2 r = 1 ∧ (w2 r ≠ wide2 r ∨ wide2 r ≠ wide1 r) then
      decode r len = .error ⟨.grammarViolation, .operand2⟩
    else if kind2 r = 4 ∧ w2 r = true ∧ wide1 r = false then
      decode r len = .error ⟨.grammarViolation, .operand2⟩
    else if kind3 r ≠ 0 then decode r len = .error ⟨.grammarViolation, .attached⟩
    else ∃ i, decode r len = .ok i

/-- R94 on a record's raw bits: once the operand of a jump or LOOPNZ has resolved, the three checks fail in their order, code 7
with the slot of the first that fails; a record that passes them all decodes. -/
def Obligations.JumpGrammarInOrder : Prop :=
  faultCodeNumber .grammarViolation = 7 ∧ slotNumber .operand1 = 1 ∧ slotNumber .operand2 = 2 ∧ slotNumber .attached = 3 ∧
  ∀ (r : Record) (len : Len), 4 ≤ opBits r → opBits r ≤ 8 → kind1 r ∈ [0, 1, 4, 5] →
    if kind1 r ≠ 5 then decode r len = .error ⟨.grammarViolation, .operand1⟩
    else if kind2 r ≠ 0 then decode r len = .error ⟨.grammarViolation, .operand2⟩
    else if kind3 r ≠ 0 then decode r len = .error ⟨.grammarViolation, .attached⟩
    else ∃ i, decode r len = .ok i

/-- Every fault a record can raise is a (code, slot) pair of R130's table, and the port's numbers are the table's. -/
def Obligations.FaultsAreTheTablesPairs : Prop :=
  (∀ (r : Record) (len : Len) (f : FaultRecord), decode r len = .error f → legalFault f = true ∧ f.code ≠ .none) ∧
  [FaultCode.none, .unsupportedOpcode, .unsupportedMemorySource, .unsupportedInvalidSource, .invalidDestination,
    .unimplemented, .invalidOperand, .grammarViolation].map (fun c => (faultCodeNumber c, faultClass c)) =
    [(0, .none), (1, .invalid), (2, .notImplemented), (3, .invalid), (4, .invalid), (5, .notImplemented), (6, .invalid),
      (7, .invalid)]

/-! ### Decoding and encoding -/

/-- Records of the spec's worked examples (95_test_vectors.md V1 to V3 and the programs) decode to their instructions. -/
def Obligations.SpecRecordsDecode : Prop :=
  decode 0x0000000000010004000000611 2 = .ok (.addRI 2 (.byte .bl) (.imm8 0x01)) ∧
  decode 0x000000000001000C000001092 2 = .ok (.subRI 2 (.word .ax) (.imm16 0x0001)) ∧
  decode 0x000000000000000000FC00058 2 = .ok (.loopnz 2 0xFC) ∧
  decode 0x0000000000000169000001493 2 = .ok (.cmpRR 2 (.word .dx) (.word .bx)) ∧
  decode 0x0000000000FF0004000000010 2 = .ok (.movRI 2 (.byte .al) (.imm8 0xFF)) ∧
  decode 0x0000000000000000000300057 2 = .ok (.jc 2 0x03) ∧
  decode 0x00000000000001490010000A0 4 = .error ⟨.unimplemented, .operand1⟩

/-- R75: the admitted forms are the only records that decode to an instruction; every other record decodes to a fault. -/
def Obligations.DecodeAcceptsAdmittedFormsOnly : Prop :=
  ∀ (r : Record) (len : Len),
    ((∃ i, decode r len = .ok i) ↔ (admittedAlu r ∨ admittedJump r)) ∧
    ((∃ f, decode r len = .error f) ↔ ¬(admittedAlu r ∨ admittedJump r))

/-- R73: reserved bits, fields a kind's rule does not name and the explicit-size bit are ignored: two records that agree on
the rest do the same in every state. -/
def Obligations.UnnamedBitsAreIgnored : Prop :=
  ∀ (r q : Record) (len : Len) (s : State), heededRecord r = heededRecord q → transfer r len s = transfer q len s

/-- Decoding an operand's descriptor gives back the operand, every kind with every payload. -/
def Obligations.OperandRoundTrip : Prop := ∀ a : Operand, Operand.ofBits a.bits = a

/-- Decode and encode agree: for every well-formed instruction, decoding its record with its length gives it back. -/
def Obligations.DecodeOfEncode : Prop := ∀ i : Instr, i.wellFormed = true → decode (encode i) i.len = .ok i

/-- A record that decodes is the encoding of its instruction but for its ignored bits (R73), and the instruction is well-formed
and carries the length supplied. That the encoding has 0 in every ignored bit is the model's choice, DEDUCED in
notes/assumptions/11.md: the spec gives those bits no value. -/
def Obligations.EncodeOfDecode : Prop :=
  ∀ (r : Record) (len : Len) (i : Instr), decode r len = .ok i →
    i.wellFormed = true ∧ i.len = len ∧ encode i = heededRecord r

/-! ### Headline statements -/

/-- The model's step through decoded instructions is the spec's own pseudocode of a step on records (R85), for every record,
length and state. -/
def Obligations.TransferIsTheSpecsStep : Prop :=
  ∀ (r : Record) (len : Len) (s : State), transfer r len s = .next (recordStep r len s)

/-- The invariant holds at reset. Its clause on the front end's program, that it is in canonical form, is the model's choice
(notes/assumptions/3.md); the other clauses rest on R34, R40, R104 and R130. -/
def Obligations.ResetMeetsInvariant : Prop := Inv State.reset

/-- Every step keeps the invariant: reserved flag bits 0, halted exactly when a fault of R130's table is recorded, the
observation's `post` the written register's present value, the front end's program in its form (the model's,
notes/assumptions/3.md). -/
def Obligations.StepKeepsInvariant : Prop := ∀ s t : State, Inv s → step s = .next t → Inv t

/-- In a state whose reserved flag bits are 0, ADD, SUB and CMP leave in the flags register exactly the word of R127: the flag
unit's OF, SF, ZF, AF, PF and CF for D0, S_W and D1 at bits 11, 7, 6, 4, 2 and 0, and 0 elsewhere. That they do not write the
other bits of a state no run reaches is the model's reading (notes/assumptions/6.md). -/
def Obligations.FlagsWordAfterArithmetic : Prop :=
  ∀ (i : Instr) (d : Reg) (s : State), reservedFlagsZero s → i.wellFormed = true → arithDest i = some d →
    ∃ t, exec i s = .next t ∧ t.flags.toNat =
      2 ^ 11 * (unitFlags s d i).ovf.toNat + 2 ^ 7 * (unitFlags s d i).sf.toNat + 2 ^ 6 * (unitFlags s d i).zf.toNat +
        2 ^ 4 * (unitFlags s d i).af.toNat + 2 ^ 2 * (unitFlags s d i).pf.toNat + (unitFlags s d i).cf.toNat

/-- The informative 8086 byte forms (R79) give only admitted instructions, 2 to 4 bytes long, the jumps and LOOPNZ 2
(R78). R79 is informative; reading it is the model's choice (notes/assumptions/7.md). -/
def Obligations.ByteFormsAreAdmitted : Prop :=
  ∀ (bs : List Byte) (i : Instr), readBytes bs = some i →
    i.wellFormed = true ∧ 2 ≤ i.len.toNat ∧ i.len.toNat ≤ 4 ∧ i.len.toNat ≤ bs.length ∧
      (relOf i ≠ none → i.len = 2)
end

