-- ==== Sys2Proof/Laws/Encoding.lean ====
section
/-! SUPPORT. The fields of an encoded record and of an encoded descriptor (spec 30_encoding.md rules R65, R66), and the
register numbers. -/

namespace Sys2Proof

/-! ### Fields of a concatenation -/

theorem extract_low {m n : Nat} (x : BitVec m) (y : BitVec n) (k l : Nat) (h : k + l ≤ n) :
    (x ++ y).extractLsb' k l = y.extractLsb' k l := by
  ext i hi
  simp only [BitVec.getElem_extractLsb', BitVec.getLsbD_append]
  rw [if_pos (by omega)]

theorem extract_high {m n : Nat} (x : BitVec m) (y : BitVec n) (k l : Nat) (h : n ≤ k) :
    (x ++ y).extractLsb' k l = x.extractLsb' (k - n) l := by
  ext i hi
  simp only [BitVec.getElem_extractLsb', BitVec.getLsbD_append]
  rw [if_neg (by omega), show k + i - n = k - n + i by omega]

theorem bit_low {m n : Nat} (x : BitVec m) (y : BitVec n) (k : Nat) (h : k < n) :
    (x ++ y).getLsbD k = y.getLsbD k := by
  rw [BitVec.getLsbD_append, if_pos h]

theorem bit_high {m n : Nat} (x : BitVec m) (y : BitVec n) (k : Nat) (h : n ≤ k) :
    (x ++ y).getLsbD k = x.getLsbD (k - n) := by
  rw [BitVec.getLsbD_append, if_neg (by omega)]

theorem extract_all {n : Nat} (x : BitVec n) : x.extractLsb' 0 n = x := by
  ext i hi
  simp

/-! ### The fields of a record -/

@[simp] theorem Record.op_make (op : BitVec 4) (a1 a2 a3 : Operand) : Record.op (Record.make op a1 a2 a3) = op :=
  (extract_low a3.bits _ 0 4 (by decide)).trans <| (extract_low a2.bits _ 0 4 (by decide)).trans <|
    (extract_low a1.bits op 0 4 (by decide)).trans (extract_all op)

@[simp] theorem Record.a1_make (op : BitVec 4) (a1 a2 a3 : Operand) : Record.a1 (Record.make op a1 a2 a3) = a1.bits :=
  (extract_low a3.bits _ 4 32 (by decide)).trans <| (extract_low a2.bits _ 4 32 (by decide)).trans <|
    (extract_high a1.bits op 4 32 (by decide)).trans (extract_all a1.bits)

@[simp] theorem Record.a2_make (op : BitVec 4) (a1 a2 a3 : Operand) : Record.a2 (Record.make op a1 a2 a3) = a2.bits :=
  (extract_low a3.bits _ 36 32 (by decide)).trans <| (extract_high a2.bits _ 36 32 (by decide)).trans
    (extract_all a2.bits)

@[simp] theorem Record.a3_make (op : BitVec 4) (a1 a2 a3 : Operand) : Record.a3 (Record.make op a1 a2 a3) = a3.bits :=
  (extract_high a3.bits _ 68 32 (by decide)).trans (extract_all a3.bits)

/-! ### The fields of a descriptor -/

section
variable (k : BitVec 3) (w es : Bool) (idx : BitVec 4) (hd : Bool) (v : Word)

@[simp] theorem Descriptor.kind_make : Descriptor.kind (Descriptor.make k w es idx hd v) = k :=
  (extract_low v _ 0 3 (by decide)).trans <| (extract_low (0#6) _ 0 3 (by decide)).trans <|
    (extract_low (BitVec.ofBool hd) _ 0 3 (by decide)).trans <| (extract_low idx _ 0 3 (by decide)).trans <|
      (extract_low (BitVec.ofBool es) _ 0 3 (by decide)).trans <|
        (extract_low (BitVec.ofBool w) k 0 3 (by decide)).trans (extract_all k)

theorem Descriptor.bit3_make : (Descriptor.make k w es idx hd v).getLsbD 3 = w :=
  (bit_low v _ 3 (by decide)).trans <| (bit_low (0#6) _ 3 (by decide)).trans <|
    (bit_low (BitVec.ofBool hd) _ 3 (by decide)).trans <| (bit_low idx _ 3 (by decide)).trans <|
      (bit_low (BitVec.ofBool es) _ 3 (by decide)).trans <|
        (bit_high (BitVec.ofBool w) k 3 (by decide)).trans (by cases w <;> rfl)

theorem Descriptor.bit4_make : (Descriptor.make k w es idx hd v).getLsbD 4 = es :=
  (bit_low v _ 4 (by decide)).trans <| (bit_low (0#6) _ 4 (by decide)).trans <|
    (bit_low (BitVec.ofBool hd) _ 4 (by decide)).trans <| (bit_low idx _ 4 (by decide)).trans <|
      (bit_high (BitVec.ofBool es) _ 4 (by decide)).trans (by cases es <;> rfl)

@[simp] theorem Descriptor.hd_make : Descriptor.hd (Descriptor.make k w es idx hd v) = hd :=
  (bit_low v _ 9 (by decide)).trans <| (bit_low (0#6) _ 9 (by decide)).trans <|
    (bit_high (BitVec.ofBool hd) _ 9 (by decide)).trans (by cases hd <;> rfl)

@[simp] theorem Descriptor.w_make : Descriptor.w (Descriptor.make k w es idx hd v) = if w then .word else .byte := by
  rw [Descriptor.w, Descriptor.bit3_make]

@[simp] theorem Descriptor.explicitSize_make : Descriptor.explicitSize (Descriptor.make k w es idx hd v) =
    if es then some (if w then .word else .byte) else none := by
  rw [Descriptor.explicitSize, Descriptor.bit4_make, Descriptor.w_make]

@[simp] theorem Descriptor.idx_make : Descriptor.idx (Descriptor.make k w es idx hd v) = idx :=
  (extract_low v _ 5 4 (by decide)).trans <| (extract_low (0#6) _ 5 4 (by decide)).trans <|
    (extract_low (BitVec.ofBool hd) _ 5 4 (by decide)).trans <|
      (extract_high idx _ 5 4 (by decide)).trans (extract_all idx)

@[simp] theorem Descriptor.mode_make : Descriptor.mode (Descriptor.make k w es idx hd v) = idx.extractLsb' 0 3 :=
  (extract_low v _ 5 3 (by decide)).trans <| (extract_low (0#6) _ 5 3 (by decide)).trans <|
    (extract_low (BitVec.ofBool hd) _ 5 3 (by decide)).trans <| extract_high idx _ 5 3 (by decide)

@[simp] theorem Descriptor.val_make : Descriptor.val (Descriptor.make k w es idx hd v) = v :=
  (extract_high v _ 16 16 (by decide)).trans (extract_all v)

/-- Every bit of a descriptor made from its fields (R66). -/
theorem Descriptor.getLsbD_make (i : Nat) : (Descriptor.make k w es idx hd v).getLsbD i =
    if i < 3 then k.getLsbD i else if i = 3 then w else if i = 4 then es
    else if i < 9 then idx.getLsbD (i - 5) else if i = 9 then hd else if i < 16 then false
    else v.getLsbD (i - 16) := by
  have h : (Descriptor.make k w es idx hd v).getLsbD i = _ :=
    BitVec.getLsbD_append (x := v) (i := i)
      (y := 0#6 ++ (BitVec.ofBool hd ++ (idx ++ (BitVec.ofBool es ++ (BitVec.ofBool w ++ k)))))
  rw [h]
  simp only [BitVec.getLsbD_append]
  by_cases h16 : i < 16
  · interval_cases i <;> simp
  · rw [if_neg (by omega), if_neg (by omega), if_neg (by omega), if_neg (by omega), if_neg (by omega),
      if_neg (by omega), if_neg h16]

end

/-! ### Register numbers -/

@[simp] theorem Width.ofBit_bit (w : Width) : (if w.bit then Width.word else Width.byte) = w := by
  cases w <;> rfl

@[simp] theorem ByteReg.ofNum_num (b : ByteReg) : ByteReg.ofNum b.num = b := by cases b <;> rfl

@[simp] theorem WordReg.ofNum_num (r : WordReg) : WordReg.ofNum r.num = r := by cases r <;> rfl

@[simp] theorem Reg.ofIdx_idx (r : Reg) : Reg.ofIdx r.idx = r := by
  rcases r with b | r
  · cases b <;> rfl
  · cases r <;> rfl

@[simp] theorem Opcode.ofTag_tag (o : Opcode) : Opcode.ofTag o.tag = some o := by
  rcases o with o | j
  · cases o <;> rfl
  · cases j <;> rfl

end Sys2Proof
end

