-- ==== Sys2Proof/Laws/Decode.lean ====
section
/-! SUPPORT. What a decode can answer, said once: the operand each kind tag gives, the three ranges of opcode tags, and what a
record that decodes must hold (spec 30_encoding.md rules R66 to R75, 40_execute_and_operands.md rules R86 to R95). -/

namespace Sys2Proof

open Sys2Proof.Safety

/-- The operand a kind number gives (R66). -/
def operandOfKind (k : Nat) (d : BitVec 32) : Operand :=
  match k with
  | 0 => .empty
  | 1 => .register (Descriptor.w d) (Reg.ofIdx (Descriptor.idx d))
  | 2 => .memoryDirect (Descriptor.val d) (Descriptor.explicitSize d)
  | 3 => .effectiveAddress (Descriptor.mode d) (Descriptor.explicitSize d) (Descriptor.hd d)
  | 4 => .immediate (Descriptor.payload d)
  | 5 => .relativeJump ((Descriptor.val d).setWidth 8)
  | 6 => .displacement (Descriptor.payload d)
  | _ => .invalid

theorem Operand.ofBits_eq (d : BitVec 32) : Operand.ofBits d = operandOfKind (d.extractLsb' 0 3).toNat d := by
  unfold Operand.ofBits Descriptor.kind
  generalize d.extractLsb' 0 3 = k
  have : k = 0 ∨ k = 1 ∨ k = 2 ∨ k = 3 ∨ k = 4 ∨ k = 5 ∨ k = 6 ∨ k = 7 := by revert k; decide
  rcases this with rfl | rfl | rfl | rfl | rfl | rfl | rfl | rfl <;> rfl

theorem ofBits_a1 (r : Record) : Operand.ofBits (Record.a1 r) = operandOfKind (kind1 r) (Record.a1 r) := by
  rw [Operand.ofBits_eq]
  congr 1
  unfold kind1
  congr 1
  ext i hi
  simp [Record.a1]
  omega

theorem ofBits_a2 (r : Record) : Operand.ofBits (Record.a2 r) = operandOfKind (kind2 r) (Record.a2 r) := by
  rw [Operand.ofBits_eq]
  congr 1
  unfold kind2
  congr 1
  ext i hi
  simp [Record.a2]
  omega

theorem ofBits_a3 (r : Record) : Operand.ofBits (Record.a3 r) = operandOfKind (kind3 r) (Record.a3 r) := by
  rw [Operand.ofBits_eq]
  congr 1
  unfold kind3
  congr 1
  ext i hi
  simp [Record.a3]
  omega

/-- The three ranges of opcode tags (R74). -/
theorem opBits_cases (r : Record) :
    (opBits r ≤ 3 ∧ ∃ o, Opcode.ofTag (Record.op r) = some (.alu o)) ∨
    (4 ≤ opBits r ∧ opBits r ≤ 8 ∧ ∃ j, Opcode.ofTag (Record.op r) = some (.jump j)) ∨
    (9 ≤ opBits r ∧ Opcode.ofTag (Record.op r) = none) := by
  unfold opBits Record.op
  generalize r.extractLsb' 0 4 = n
  have : n = 0 ∨ n = 1 ∨ n = 2 ∨ n = 3 ∨ n = 4 ∨ n = 5 ∨ n = 6 ∨ n = 7 ∨ n = 8 ∨ n = 9 ∨ n = 10 ∨ n = 11 ∨ n = 12 ∨
      n = 13 ∨ n = 14 ∨ n = 15 := by revert n; decide
  rcases this with rfl | rfl | rfl | rfl | rfl | rfl | rfl | rfl | rfl | rfl | rfl | rfl | rfl | rfl | rfl | rfl <;>
    simp <;> first | exact ⟨_, rfl⟩ | rfl

theorem Opcode.tag_of_ofTag {n : BitVec 4} {o : Opcode} (h : Opcode.ofTag n = some o) : o.tag = n := by
  have all : ∀ n : BitVec 4, ∀ x ∈ [Opcode.alu .mov, .alu .add, .alu .sub, .alu .cmp, .jump .jnz, .jump .jz, .jump .jp,
      .jump .jc, .jump .loopnz], Opcode.ofTag n = some x → x.tag = n := by decide
  apply all n _ _ h
  rcases o with o | o <;> cases o <;> simp

theorem checkDestination_ok {a : Operand} {x : Reg} (h : checkDestination a = .ok x) : a = x.operand := by
  unfold checkDestination at h
  split at h
  · split at h
    · cases h
      simp_all [Reg.operand]
    · cases h
  · cases h

theorem checkAttached_ok {a : Operand} {u : Unit} (h : checkAttached a = .ok u) : a = .empty := by
  unfold checkAttached at h
  split at h
  · assumption
  · cases h

/-- What the checks of MOV, ADD, SUB and CMP let through (R93). -/
theorem aluChecks_ok {a1 a2 a3 : Operand} {d : Reg} {src : AluSource} (h : aluChecks a1 a2 a3 = .ok (d, src)) :
    a1 = d.operand ∧ a3 = .empty ∧
      ((∃ r, src = .reg r ∧ a2 = r.operand ∧ sourceWidthOk d r = true) ∨
        (∃ i, src = .imm i ∧ a2 = .immediate i ∧ immWidthOk d i = true)) := by
  unfold aluChecks at h
  split at h
  · cases h
  split at h
  · cases h
  unfold aluGrammar at h
  split at h
  · cases hc : checkDestination a1 with
    | error e => simp [hc, bind, Except.bind] at h
    | ok x =>
      simp only [hc, bind, Except.bind] at h
      split at h
      · cases h
      split at h
      · cases h
      cases ha : checkAttached a3 with
      | error e => simp [ha] at h
      | ok u =>
        simp only [ha] at h
        cases h
        rename_i h1 h2
        refine ⟨checkDestination_ok hc, checkAttached_ok ha, .inl ⟨_, rfl, ?_, by simpa using h2⟩⟩
        simp only [ne_eq, not_not] at h1
        rw [h1]
        rfl
  · cases hc : checkDestination a1 with
    | error e => simp [hc, bind, Except.bind] at h
    | ok x =>
      simp only [hc, bind, Except.bind] at h
      split at h
      · cases h
      cases ha : checkAttached a3 with
      | error e => simp [ha] at h
      | ok u =>
        simp only [ha] at h
        cases h
        rename_i h2
        exact ⟨checkDestination_ok hc, checkAttached_ok ha, .inr ⟨_, rfl, rfl, by simpa using h2⟩⟩
  · cases h

/-- What the checks of a jump let through (R94). -/
theorem jumpChecks_ok {a1 a2 a3 : Operand} {b : Byte} (h : jumpChecks a1 a2 a3 = .ok b) :
    a1 = .relativeJump b ∧ a2 = .empty ∧ a3 = .empty := by
  unfold jumpChecks at h
  split at h
  · cases h
  unfold jumpGrammar at h
  split at h
  · split at h
    · cases h
    cases ha : checkAttached a3 with
    | error e => simp [ha, bind, Except.bind] at h
    | ok u =>
      simp only [ha, bind, Except.bind] at h
      cases h
      exact ⟨rfl, by simp_all, checkAttached_ok ha⟩
  · cases h

end Sys2Proof
end

