-- ==== Sys2Proof/Laws/State.lean ====
section
/-! SUPPORT. What each update of State does to each field, true by rfl. -/

namespace Sys2Proof.Machine

/-! ### The commit -/

@[simp] theorem State.commit_regs (s : State) (d f ip) : (s.commit d f ip).regs = committedRegs s.regs d := rfl
@[simp] theorem State.commit_flags (s : State) (d f ip) : (s.commit d f ip).flags = committedFlags s.flags f := rfl
@[simp] theorem State.commit_ip (s : State) (d f ip) : (s.commit d f ip).ip = ip := rfl
@[simp] theorem State.commit_obs (s : State) (d f ip) : (s.commit d f ip).obs = committedObs s d := rfl
@[simp] theorem State.commit_halted (s : State) (d f ip) : (s.commit d f ip).halted = s.halted := rfl
@[simp] theorem State.commit_fault (s : State) (d f ip) : (s.commit d f ip).fault = s.fault := rfl
@[simp] theorem State.commit_program (s : State) (d f ip) : (s.commit d f ip).program = s.program := rfl
@[simp] theorem State.commit_resetIn (s : State) (d f ip) : (s.commit d f ip).resetIn = s.resetIn := rfl
@[simp] theorem State.commit_freeDraws (s : State) (d f ip) :
    (s.commit d f ip).freeDraws = committedDraws s.freeDraws d := rfl

@[simp] theorem committedRegs_some (f : RegFile) (r : Reg) (v) : committedRegs f (some ⟨r, v⟩) = RegFile.write f r v := rfl
@[simp] theorem committedRegs_none (f : RegFile) : committedRegs f none = f := rfl
@[simp] theorem committedFlags_some (o : Word) (f : FlagBits) : committedFlags o (some f) = writeFlags o f := rfl
@[simp] theorem committedFlags_none (o : Word) : committedFlags o none = o := rfl
@[simp] theorem committedObs_dest_some (s : State) (r : Reg) (v) : (committedObs s (some ⟨r, v⟩)).dest = some r := rfl
@[simp] theorem committedObs_dest_none (s : State) : (committedObs s none).dest = none := rfl

/-! ### Taking a fault -/

@[simp] theorem State.takeFault_regs (s : State) (f) : (s.takeFault f).regs = s.regs := rfl
@[simp] theorem State.takeFault_ip (s : State) (f) : (s.takeFault f).ip = s.ip := rfl
@[simp] theorem State.takeFault_flags (s : State) (f) : (s.takeFault f).flags = s.flags := rfl
@[simp] theorem State.takeFault_halted (s : State) (f) : (s.takeFault f).halted = true := rfl
@[simp] theorem State.takeFault_fault (s : State) (f) : (s.takeFault f).fault = f := rfl
@[simp] theorem State.takeFault_obs (s : State) (f) : (s.takeFault f).obs = s.obs := rfl
@[simp] theorem State.takeFault_program (s : State) (f) : (s.takeFault f).program = s.program := rfl
@[simp] theorem State.takeFault_resetIn (s : State) (f) : (s.takeFault f).resetIn = s.resetIn := rfl
@[simp] theorem State.takeFault_freeDraws (s : State) (f) : (s.takeFault f).freeDraws = s.freeDraws := rfl

/-! ### Reset -/

@[simp] theorem State.applyReset_regs (s : State) : s.applyReset.regs = State.reset.regs := rfl
@[simp] theorem State.applyReset_ip (s : State) : s.applyReset.ip = 0 := rfl
@[simp] theorem State.applyReset_flags (s : State) : s.applyReset.flags = 0 := rfl
@[simp] theorem State.applyReset_halted (s : State) : s.applyReset.halted = false := rfl
@[simp] theorem State.applyReset_fault (s : State) : s.applyReset.fault = FaultRecord.cleared := rfl
@[simp] theorem State.applyReset_obs (s : State) : s.applyReset.obs = ⟨none, 0, 0⟩ := rfl
@[simp] theorem State.applyReset_program (s : State) : s.applyReset.program = s.program := rfl
@[simp] theorem State.applyReset_resetIn (s : State) : s.applyReset.resetIn = false := rfl
@[simp] theorem State.applyReset_freeDraws (s : State) : s.applyReset.freeDraws = s.freeDraws := rfl

/-! ### Loading the front end's program -/

@[simp] theorem State.load_regs (s : State) (a r n) : (s.load a r n).regs = s.regs := rfl
@[simp] theorem State.load_ip (s : State) (a r n) : (s.load a r n).ip = s.ip := rfl
@[simp] theorem State.load_flags (s : State) (a r n) : (s.load a r n).flags = s.flags := rfl
@[simp] theorem State.load_halted (s : State) (a r n) : (s.load a r n).halted = s.halted := rfl
@[simp] theorem State.load_fault (s : State) (a r n) : (s.load a r n).fault = s.fault := rfl
@[simp] theorem State.load_obs (s : State) (a r n) : (s.load a r n).obs = s.obs := rfl
@[simp] theorem State.load_program (s : State) (a r n) :
    (s.load a r n).program = Program.insert ⟨a.toNat, r, n⟩ s.program := rfl
@[simp] theorem State.load_resetIn (s : State) (a r n) : (s.load a r n).resetIn = s.resetIn := rfl
@[simp] theorem State.load_freeDraws (s : State) (a r n) : (s.load a r n).freeDraws = s.freeDraws := rfl

@[simp] theorem State.withFetchWord_regs (s : State) (n w) : (s.withFetchWord n w).regs = s.regs := rfl
@[simp] theorem State.withFetchWord_ip (s : State) (n w) : (s.withFetchWord n w).ip = s.ip := rfl
@[simp] theorem State.withFetchWord_flags (s : State) (n w) : (s.withFetchWord n w).flags = s.flags := rfl
@[simp] theorem State.withFetchWord_halted (s : State) (n w) : (s.withFetchWord n w).halted = s.halted := rfl
@[simp] theorem State.withFetchWord_fault (s : State) (n w) : (s.withFetchWord n w).fault = s.fault := rfl
@[simp] theorem State.withFetchWord_obs (s : State) (n w) : (s.withFetchWord n w).obs = s.obs := rfl
@[simp] theorem State.withFetchWord_resetIn (s : State) (n w) : (s.withFetchWord n w).resetIn = false := rfl
@[simp] theorem State.withFetchWord_freeDraws (s : State) (n w) : (s.withFetchWord n w).freeDraws = s.freeDraws := rfl
@[simp] theorem State.withFetchWord_program (s : State) (n w) : (s.withFetchWord n w).program =
    Program.insert ⟨s.ip.toNat, BitVec.ofNat 100 (w % 2 ^ n), BitVec.ofNat 4 (w % 2 ^ n / 2 ^ 100)⟩ s.program := rfl

end Sys2Proof.Machine
end

