-- ==== Sys2Proof/Laws/Flags.lean ====
section
/-! SUPPORT. Reading the flags register back after a flag write (spec 44_flags.md rule R127, 10_state.md rule R34). -/

namespace Sys2Proof.Machine

theorem FlagBits.word_cf (f : FlagBits) : f.word.getLsbD 0 = f.cf := by
  rcases f with ⟨_ | _, _ | _, _ | _, _ | _, _ | _, _ | _⟩ <;> rfl

theorem FlagBits.word_pf (f : FlagBits) : f.word.getLsbD 2 = f.pf := by
  rcases f with ⟨_ | _, _ | _, _ | _, _ | _, _ | _, _ | _⟩ <;> rfl

theorem FlagBits.word_af (f : FlagBits) : f.word.getLsbD 4 = f.af := by
  rcases f with ⟨_ | _, _ | _, _ | _, _ | _, _ | _, _ | _⟩ <;> rfl

theorem FlagBits.word_zf (f : FlagBits) : f.word.getLsbD 6 = f.zf := by
  rcases f with ⟨_ | _, _ | _, _ | _, _ | _, _ | _, _ | _⟩ <;> rfl

theorem FlagBits.word_sf (f : FlagBits) : f.word.getLsbD 7 = f.sf := by
  rcases f with ⟨_ | _, _ | _, _ | _, _ | _, _ | _, _ | _⟩ <;> rfl

theorem FlagBits.word_ovf (f : FlagBits) : f.word.getLsbD 11 = f.ovf := by
  rcases f with ⟨_ | _, _ | _, _ | _, _ | _, _ | _, _ | _⟩ <;> rfl

/-- A bit position that holds a flag. -/
def isFlagBit (n : Nat) : Bool := n == 0 || n == 2 || n == 4 || n == 6 || n == 7 || n == 11

theorem definedFlagBits_getLsbD (n : Nat) : definedFlagBits.getLsbD n = isFlagBit n := by
  by_cases h : n < 16
  · have all : ∀ m : Fin 16, definedFlagBits.getLsbD m.val = isFlagBit m.val := by decide
    exact all ⟨n, h⟩
  · rw [BitVec.getLsbD_of_ge _ _ (by omega)]
    symm
    simp only [isFlagBit, Bool.or_eq_false_iff, beq_eq_false_iff_ne]
    omega

theorem FlagBits.word_reserved (f : FlagBits) (n : Nat) (h : isFlagBit n = false) : f.word.getLsbD n = false := by
  by_cases hn : n < 16
  · have all : ∀ m : Fin 16, isFlagBit m.val = false → f.word.getLsbD m.val = false := by
      rcases f with ⟨_ | _, _ | _, _ | _, _ | _, _ | _, _ | _⟩ <;> decide
    exact all ⟨n, hn⟩ h
  · exact BitVec.getLsbD_of_ge _ _ (by omega)

theorem writeFlags_flag (old : Word) (f : FlagBits) (n : Nat) (h : isFlagBit n = true) :
    (writeFlags old f).getLsbD n = f.word.getLsbD n := by
  simp only [writeFlags, BitVec.getLsbD_or, BitVec.getLsbD_and, BitVec.getLsbD_not, definedFlagBits_getLsbD, h,
    Bool.not_true, Bool.and_false, Bool.false_or]

/-- A flag write leaves every bit that holds no flag (R34). -/
theorem writeFlags_reserved (old : Word) (f : FlagBits) (n : Nat) (h : isFlagBit n = false) :
    (writeFlags old f).getLsbD n = old.getLsbD n := by
  by_cases hn : n < 16
  · simp only [writeFlags, BitVec.getLsbD_or, BitVec.getLsbD_and, BitVec.getLsbD_not, definedFlagBits_getLsbD, h,
      f.word_reserved n h, hn, decide_true, Bool.not_false, Bool.and_true, Bool.or_false]
  · rw [BitVec.getLsbD_of_ge _ _ (by omega), BitVec.getLsbD_of_ge _ _ (by omega)]

theorem isFlagBit_false_iff (n : Nat) : isFlagBit n = false ↔ n ∉ [0, 2, 4, 6, 7, 11] := by
  simp [isFlagBit, not_or, and_assoc]

/-- The six flags read back after a commit that writes them are the ones written (R127). -/
theorem State.flagBits_commit (s : State) (d : Option DestWrite) (f : FlagBits) (ip : Word) :
    (s.commit d (some f) ip).flagBits = f := by
  simp only [State.flagBits, State.cf, State.pf, State.af, State.zf, State.sf, State.ovf, State.commit_flags,
    committedFlags_some, writeFlags_flag _ _ 0 rfl, writeFlags_flag _ _ 2 rfl, writeFlags_flag _ _ 4 rfl,
    writeFlags_flag _ _ 6 rfl, writeFlags_flag _ _ 7 rfl, writeFlags_flag _ _ 11 rfl, FlagBits.word_cf,
    FlagBits.word_pf, FlagBits.word_af, FlagBits.word_zf, FlagBits.word_sf, FlagBits.word_ovf]

end Sys2Proof.Machine
end

