-- ==== Sys2Proof/Laws/Ops.lean ====
section
/-! SUPPORT. The register file: what a write does to every read (spec 10_state.md rule R26), and the commit's effect on
every register. -/

namespace Sys2Proof.Machine

theorem get_set (f : RegFile) (i j : Fin 16) (v : Byte) :
    Vector.get (Vector.set f i v i.isLt) j = if j = i then v else Vector.get f j := by
  simp only [Vector.get_eq_getElem, Vector.getElem_set, Fin.ext_iff, eq_comm]

theorem byteOffset_inj (b c : ByteReg) : byteOffset b = byteOffset c ↔ b = c := by
  cases b <;> cases c <;> decide

theorem lowOffset_inj (r q : WordReg) : lowOffset r = lowOffset q ↔ r = q := by
  cases r <;> cases q <;> decide

theorem highOffset_inj (r q : WordReg) : highOffset r = highOffset q ↔ r = q := by
  cases r <;> cases q <;> decide

theorem lowOffset_ne_highOffset (r q : WordReg) : lowOffset r ≠ highOffset q := by
  cases r <;> cases q <;> decide

theorem byteOffset_ne_low (b : ByteReg) (r : WordReg) (h : b.parent ≠ r) : byteOffset b ≠ lowOffset r := by
  cases b <;> cases r <;> first | decide | exact absurd rfl h

theorem byteOffset_ne_high (b : ByteReg) (r : WordReg) (h : b.parent ≠ r) : byteOffset b ≠ highOffset r := by
  cases b <;> cases r <;> first | decide | exact absurd rfl h

/-- A word is its high byte over its low byte. -/
theorem word_halves (v : Word) : v.extractLsb' 8 8 ++ v.extractLsb' 0 8 = v := by
  ext i hi
  simp only [BitVec.getElem_append, BitVec.getElem_extractLsb']
  split
  · simp [BitVec.getLsbD_eq_getElem hi]
  · rw [show 8 + (i - 8) = i by omega, BitVec.getLsbD_eq_getElem hi]

theorem low_of_append (a b : Byte) : (a ++ b : Word).extractLsb' 0 8 = b := by
  ext i hi
  have h : (a ++ b : Word).getLsbD i = _ := BitVec.getLsbD_append (x := a) (y := b) (i := i)
  simp [h, hi]

theorem high_of_append (a b : Byte) : (a ++ b : Word).extractLsb' 8 8 = a := by
  ext i hi
  have h : (a ++ b : Word).getLsbD (8 + i) = _ := BitVec.getLsbD_append (x := a) (y := b) (i := 8 + i)
  simp [h, BitVec.getLsbD_eq_getElem hi]

/-! ### Reads after writes -/

theorem rb_setRb (f : RegFile) (b c : ByteReg) (v : Byte) :
    RegFile.rb (RegFile.setRb f b v) c = if c = b then v else RegFile.rb f c := by
  simp only [RegFile.rb, RegFile.setRb, get_set, byteOffset_inj]

theorem rw_setRw_self (f : RegFile) (r : WordReg) (v : Word) : RegFile.rw (RegFile.setRw f r v) r = v := by
  simp only [RegFile.rw, RegFile.setRw, get_set, lowOffset_ne_highOffset, if_true, if_false]
  exact word_halves v

theorem rw_setRw_ne (f : RegFile) (r q : WordReg) (v : Word) (h : q ≠ r) :
    RegFile.rw (RegFile.setRw f r v) q = RegFile.rw f q := by
  simp only [RegFile.rw, RegFile.setRw, get_set, lowOffset_ne_highOffset, (lowOffset_ne_highOffset _ _).symm,
    lowOffset_inj, highOffset_inj, h, if_false]

theorem rw_setRb_ne (f : RegFile) (b : ByteReg) (r : WordReg) (v : Byte) (h : b.parent ≠ r) :
    RegFile.rw (RegFile.setRb f b v) r = RegFile.rw f r := by
  simp only [RegFile.rw, RegFile.setRb, get_set, (byteOffset_ne_low b r h).symm, (byteOffset_ne_high b r h).symm,
    if_false]

theorem rb_setRw_ne (f : RegFile) (r : WordReg) (b : ByteReg) (v : Word) (h : b.parent ≠ r) :
    RegFile.rb (RegFile.setRw f r v) b = RegFile.rb f b := by
  simp only [RegFile.rb, RegFile.setRw, get_set, byteOffset_ne_low b r h, byteOffset_ne_high b r h, if_false]

/-- A byte register is the half of its parent that R22 names. -/
theorem rb_eq_half (f : RegFile) (b : ByteReg) :
    RegFile.rb f b = if b.isHigh then (RegFile.rw f b.parent).extractLsb' 8 8
      else (RegFile.rw f b.parent).extractLsb' 0 8 := by
  unfold RegFile.rb RegFile.rw byteOffset
  split <;> simp only [low_of_append, high_of_append]

/-- A byte write changes one half of the parent and keeps the other. -/
theorem rw_setRb_parent (f : RegFile) (b : ByteReg) (v : Byte) :
    RegFile.rw (RegFile.setRb f b v) b.parent =
      if b.isHigh then v ++ (RegFile.rw f b.parent).extractLsb' 0 8
      else (RegFile.rw f b.parent).extractLsb' 8 8 ++ v := by
  cases hb : b.isHigh <;>
    simp [RegFile.rw, RegFile.setRb, get_set, byteOffset, hb, low_of_append, high_of_append,
      lowOffset_ne_highOffset, (lowOffset_ne_highOffset _ _).symm]

/-! ### The index space -/

theorem read_write_self (f : RegFile) (r : Reg) (v : BitVec r.bits) :
    RegFile.read (RegFile.write f r v) r = v := by
  cases r with
  | byte b => exact (rb_setRb f b b v).trans (if_pos rfl)
  | word r => exact rw_setRw_self f r v

end Sys2Proof.Machine
end

