-- ==== Sys2Proof/Laws/Exec.lean ====
section
/-! SUPPORT. What an instruction and a step can do, each said once: a well-formed instruction commits, any other takes the
grammar fault, and nothing else happens. -/

namespace Sys2Proof.Machine

/-- The one commit a well-formed instruction makes. -/
def committed (i : Instr) (s : State) : State :=
  match i with
  | .movRR len d r => s.move len d (s.sourceReg r)
  | .movRI len d v => s.move len d (immValue v)
  | .addRR len d r => s.addTo len d (s.sourceReg r)
  | .addRI len d v => s.addTo len d (immValue v)
  | .subRR len d r => s.subFrom len d (s.sourceReg r)
  | .subRI len d v => s.subFrom len d (immValue v)
  | .cmpRR len d r => s.compare len d (s.sourceReg r)
  | .cmpRI len d v => s.compare len d (immValue v)
  | .jnz len rel => s.jump len rel (!s.zf)
  | .jz len rel => s.jump len rel s.zf
  | .jp len rel => s.jump len rel s.pf
  | .jc len rel => s.jump len rel s.cf
  | .loopnz len rel =>
    s.commit (some ⟨.word .cx, s.rw .cx - 1⟩) none (s.jumpTo len (relValue rel) (s.rw .cx - 1 != 0 && !s.zf))

theorem sourceWidthOk_eq (d r : Reg) : sourceWidthOk d r = d.sameWidth r := by
  rcases d with d | d <;> rcases r with r | r <;> rfl

theorem immWidthOk_eq (d : Reg) (i : Imm) : immWidthOk d i = i.fits d := rfl

theorem guardWidths_eq (ok : Bool) (s t : State) :
    guardWidths ok s t = .next (if ok then t else s.takeFault (grammarFault .operand2)) := by
  cases ok <;> rfl

theorem guardReg_eq (d r : Reg) (s t : State) :
    guardReg d r s t = .next (if d.sameWidth r then t else s.takeFault (grammarFault .operand2)) := by
  rw [guardReg, guardWidths_eq, sourceWidthOk_eq]

theorem guardImm_eq (d : Reg) (i : Imm) (s t : State) :
    guardImm d i s t = .next (if i.fits d then t else s.takeFault (grammarFault .operand2)) :=
  guardWidths_eq _ s t

/-- Every instruction answers a next state: its commit if it is well-formed, else the grammar fault at slot 2. -/
theorem exec_eq (i : Instr) (s : State) :
    exec i s = .next (if i.wellFormed then committed i s else s.takeFault (grammarFault .operand2)) := by
  cases i with
  | movRR _ d r | addRR _ d r | subRR _ d r | cmpRR _ d r => exact guardReg_eq d r s _
  | movRI _ d v | addRI _ d v | subRI _ d v | cmpRI _ d v => exact guardImm_eq d v s _
  | jnz | jz | jp | jc | loopnz => rfl

theorem exec_wellFormed (i : Instr) (s : State) (h : i.wellFormed = true) : exec i s = .next (committed i s) := by
  rw [exec_eq, if_pos h]

/-- Every commit has the shape of R99: a destination write, a flag write, and `ip`. -/
theorem committed_shape (i : Instr) (s : State) : ∃ d f ip, committed i s = s.commit d f ip := by
  cases i <;> exact ⟨_, _, _, rfl⟩

/-- Every transfer answers a next state. -/
theorem transfer_next (r : Record) (len : Len) (s : State) : ∃ t, transfer r len s = .next t := by
  unfold transfer
  split
  · exact ⟨_, rfl⟩
  · split
    · exact ⟨_, exec_eq _ _⟩
    · exact ⟨_, rfl⟩

/-- What a step can do: reset, nothing, take a record's fault, or run a record's instruction. -/
theorem step_cases {s t : State} (h : step s = .next t) :
    (s.resetIn = true ∧ t = s.applyReset) ∨
    (s.resetIn = false ∧ t = s ∧ (s.supplied = none ∨ s.halted = true)) ∨
    (s.resetIn = false ∧ s.halted = false ∧ ∃ p f, s.supplied = some p ∧ decode p.record p.len = .error f ∧
      t = s.takeFault f) ∨
    (s.resetIn = false ∧ s.halted = false ∧ ∃ p i, s.supplied = some p ∧ decode p.record p.len = .ok i ∧
      exec i s = .next t) := by
  unfold step stepWithInputs transfer at h
  split at h
  · exact .inl ⟨‹_›, by simpa using h.symm⟩
  · have hr : s.resetIn = false := by simpa using ‹¬s.resetIn = true›
    right
    split at h
    · split at h
      · exact .inl ⟨hr, by simpa using h.symm, .inr ‹_›⟩
      · have hh : s.halted = false := by simpa using ‹¬s.halted = true›
        right
        split at h
        · exact .inr ⟨hr, hh, _, _, ‹_›, ‹_›, h⟩
        · exact .inl ⟨hr, hh, _, _, ‹_›, ‹_›, by simpa using h.symm⟩
    · exact .inl ⟨hr, by simpa using h.symm, .inl ‹_›⟩

end Sys2Proof.Machine
end

