-- ==== Sys2Proof/Laws/Operands.lean ====
section
/-! SUPPORT. Operand values at their widths, the advance of `ip`, and the frame of a commit, in the words of Safety
(spec 40_execute_and_operands.md rules R88, R96 to R102). -/

namespace Sys2Proof.Machine

open Sys2Proof.Safety

theorem bits_eight_or_sixteen (d : Reg) : d.bits = 8 ∨ d.bits = 16 := by
  cases d
  · exact .inl rfl
  · exact .inr rfl

theorem bits_le_working (d : Reg) : d.bits ≤ 32 := by
  rcases bits_eight_or_sixteen d with h | h <;> omega

theorem sameWidth_of_eq {d r : Reg} (h : d.width = r.width) : d.sameWidth r = true := by simp [Reg.sameWidth, h]

theorem fits_of_le {d : Reg} {i : Imm} (h : i.width.bits ≤ d.bits) : i.fits d = true := by simpa [Imm.fits] using h

/-- Sign extension and then truncation is sign extension to the smaller width. -/
theorem setWidth_signExtend_of_le {m : Nat} (n k : Nat) (x : BitVec m) (h : n ≤ k) :
    (x.signExtend k).setWidth n = x.signExtend n := by
  apply BitVec.eq_of_getLsbD_eq
  intro i hi
  simp only [BitVec.getLsbD_setWidth, BitVec.getLsbD_signExtend, hi, show i < k by omega, decide_true, Bool.true_and]

/-- A register source's pattern is the register's value (R106). -/
theorem truncTo_sourceReg {d r : Reg} (s : State) (h : d.width = r.width) :
    truncTo d (s.sourceReg r) = (s.read r).setWidth d.bits := by
  have hb : d.bits = r.bits := by simp [Reg.bits, h]
  rw [truncTo, State.sourceReg, setWidth_signExtend_of_le _ _ _ (bits_le_working d), hb, BitVec.signExtend_eq,
    BitVec.setWidth_eq]

/-- An immediate source's pattern is its sign extension from its own width (R97). -/
theorem truncTo_immValue {d : Reg} (i : Imm) : truncTo d (immValue i) = immPattern d.bits i := by
  cases i <;> exact setWidth_signExtend_of_le _ _ _ (bits_le_working d)

/-- `ip_seq` as a number (R88). -/
theorem ipSeq_toNat (len : Len) (s : State) : (s.ipSeq len).toNat = (s.ip.toNat + len.toNat) % 2 ^ 16 := by
  simp [State.ipSeq, BitVec.toNat_add]

/-- A register write leaves every register that shares nothing with it (R26). -/
theorem read_write_apart (f : RegFile) (d r : Reg) (v) (h : d.overlaps r = false) :
    RegFile.read (RegFile.write f d v) r = RegFile.read f r := by
  rcases d with d | d <;> rcases r with r | r <;> simp [Reg.overlaps] at h
  · exact (rb_setRb f d r v).trans (if_neg (Ne.symm h))
  · exact rw_setRb_ne f d r v h
  · exact rb_setRw_ne f d r v h
  · exact rw_setRw_ne f d r v (Ne.symm h)

theorem read_commit (s : State) (d : Reg) (v fl ip) : (s.commit (some ⟨d, v⟩) fl ip).read d = v :=
  read_write_self s.regs d v

/-- What a commit with a destination leaves alone, and what it observes. -/
theorem commit_frame (s : State) (d : Reg) (v fl ip) :
    ObservedWrite d s (s.commit (some ⟨d, v⟩) fl ip) ∧ RegsKeptBut d s (s.commit (some ⟨d, v⟩) fl ip) ∧
      ControlKept s (s.commit (some ⟨d, v⟩) fl ip) :=
  ⟨rfl, fun r h => read_write_apart s.regs d r v h, rfl, rfl, rfl, rfl⟩

/-- A flag write leaves the bits that hold no flag (R34). -/
theorem commit_reserved (s : State) (d f ip) : ReservedFlagsKept s (s.commit d (some f) ip) := fun n h =>
  writeFlags_reserved _ _ n ((isFlagBit_false_iff n).2 h)

/-- A taken jump's displacement at 16 bits. -/
theorem relValue_setWidth (b : Byte) : ((relValue b).setWidth 16 : Word) = BitVec.ofInt 16 b.toInt := by
  rw [relValue, setWidth_signExtend_of_le _ _ _ (by decide)]
  rfl

end Sys2Proof.Machine
end

