-- ==== Sys2Proof/Laws/PerInstr.lean ====
section
/-! SUPPORT. The opcode table, instruction by instruction: the table's mask and match bits of each record (spec 30_encoding.md
rule R84, spec/opcode_table.json). -/

namespace Sys2Proof.Laws.TableBits

/-- The mask of every row of spec/opcode_table.json: the bits of `op` and of the three `kind` fields (R84). -/
def mask : Record := 0x000000070000000700000007F

/-- The match value of an instruction's row, as spec/opcode_table.json has it. -/
def rowMatch : Instr → Record
  | .movRR .. => 0x0000000000000001000000010
  | .movRI .. => 0x0000000000000004000000010
  | .addRR .. => 0x0000000000000001000000011
  | .addRI .. => 0x0000000000000004000000011
  | .subRR .. => 0x0000000000000001000000012
  | .subRI .. => 0x0000000000000004000000012
  | .cmpRR .. => 0x0000000000000001000000013
  | .cmpRI .. => 0x0000000000000004000000013
  | .jnz .. => 0x0000000000000000000000054
  | .jz .. => 0x0000000000000000000000055
  | .jp .. => 0x0000000000000000000000056
  | .jc .. => 0x0000000000000000000000057
  | .loopnz .. => 0x0000000000000000000000058

/-- The record of an instruction has its row's match value in the bits of the mask. -/
def Statement (i : Instr) : Prop := encode i &&& mask = rowMatch i

/-- A record's bits under the mask are its opcode and its operands' kinds. -/
theorem make_and_mask (op : BitVec 4) (a1 a2 a3 : Operand) :
    Record.make op a1 a2 a3 &&& mask =
      (a3.bits &&& 7) ++ ((a2.bits &&& 7) ++ ((a1.bits &&& 7) ++ op)) := by
  rw [show mask = (7 : BitVec 32) ++ ((7 : BitVec 32) ++ ((7 : BitVec 32) ++ (15 : BitVec 4))) from rfl, Record.make,
    BitVec.and_append, BitVec.and_append, BitVec.and_append]
  congr 3
  exact BitVec.and_allOnes

/-- A descriptor's bits under 7 are its kind. -/
theorem descriptor_and_seven (k : BitVec 3) (w es : Bool) (idx : BitVec 4) (hd : Bool) (v : Word) :
    Descriptor.make k w es idx hd v &&& 7 = 0#29 ++ k := by
  apply BitVec.eq_of_getLsbD_eq
  intro i hi
  rw [BitVec.getLsbD_and, Descriptor.getLsbD_make]
  have h : (0#29 ++ k : BitVec 32).getLsbD i = _ := BitVec.getLsbD_append (x := 0#29) (y := k) (i := i)
  rw [h]
  interval_cases i <;> simp

theorem register_and_seven (r : Reg) : r.operand.bits &&& 7 = 1 := descriptor_and_seven 1 _ _ _ _ _

theorem immediate_and_seven (i : Imm) : (Operand.immediate i).bits &&& 7 = 4 := descriptor_and_seven 4 _ _ _ _ _

theorem relativeJump_and_seven (b : Byte) : (Operand.relativeJump b).bits &&& 7 = 5 := descriptor_and_seven 5 _ _ _ _ _

theorem regReg (o : AluOp) (d r : Reg) :
    Record.make (Opcode.alu o).tag d.operand r.operand .empty &&& mask =
      (0 : BitVec 32) ++ ((1 : BitVec 32) ++ ((1 : BitVec 32) ++ (Opcode.alu o).tag)) := by
  rw [make_and_mask, register_and_seven, register_and_seven]
  rfl

theorem regImm (o : AluOp) (d : Reg) (i : Imm) :
    Record.make (Opcode.alu o).tag d.operand (.immediate i) .empty &&& mask =
      (0 : BitVec 32) ++ ((4 : BitVec 32) ++ ((1 : BitVec 32) ++ (Opcode.alu o).tag)) := by
  rw [make_and_mask, register_and_seven, immediate_and_seven]
  rfl

theorem rel8 (j : JumpOp) (b : Byte) :
    Record.make (Opcode.jump j).tag (.relativeJump b) .empty .empty &&& mask =
      (0 : BitVec 32) ++ ((0 : BitVec 32) ++ ((5 : BitVec 32) ++ (Opcode.jump j).tag)) := by
  rw [make_and_mask, relativeJump_and_seven]
  rfl

theorem movRR (len : Len) (d r : Reg) : Statement (.movRR len d r) := regReg .mov d r
theorem movRI (len : Len) (d : Reg) (i : Imm) : Statement (.movRI len d i) := regImm .mov d i
theorem addRR (len : Len) (d r : Reg) : Statement (.addRR len d r) := regReg .add d r
theorem addRI (len : Len) (d : Reg) (i : Imm) : Statement (.addRI len d i) := regImm .add d i
theorem subRR (len : Len) (d r : Reg) : Statement (.subRR len d r) := regReg .sub d r
theorem subRI (len : Len) (d : Reg) (i : Imm) : Statement (.subRI len d i) := regImm .sub d i
theorem cmpRR (len : Len) (d r : Reg) : Statement (.cmpRR len d r) := regReg .cmp d r
theorem cmpRI (len : Len) (d : Reg) (i : Imm) : Statement (.cmpRI len d i) := regImm .cmp d i
theorem jnz (len : Len) (rel : Byte) : Statement (.jnz len rel) := rel8 .jnz rel
theorem jz (len : Len) (rel : Byte) : Statement (.jz len rel) := rel8 .jz rel
theorem jp (len : Len) (rel : Byte) : Statement (.jp len rel) := rel8 .jp rel
theorem jc (len : Len) (rel : Byte) : Statement (.jc len rel) := rel8 .jc rel
theorem loopnz (len : Len) (rel : Byte) : Statement (.loopnz len rel) := rel8 .loopnz rel

end Sys2Proof.Laws.TableBits
end

