-- ==== Sys2Proof/Laws/Program.lean ====
section
/-! SUPPORT. The front end's program: what an insertion does, and that it keeps the canonical form. -/

namespace Sys2Proof.Machine

theorem Program.find_insert_self (p : ProgramSlot) (l : Program) :
    Program.find (Program.insert p l) p.addr = some p := by
  induction l with
  | nil => simp [Program.insert, Program.find]
  | cons q rest ih =>
    unfold Program.insert
    split
    · simp [Program.find]
    · split
      · simp [Program.find]
      · rename_i h1 h2
        have : q.addr ≠ p.addr := fun h => h2 h.symm
        simp [Program.find, this, ih]

theorem Program.find_insert_ne (p : ProgramSlot) (l : Program) (a : Nat) (h : a ≠ p.addr) :
    Program.find (Program.insert p l) a = Program.find l a := by
  induction l with
  | nil => simp [Program.insert, Program.find, Ne.symm h]
  | cons q rest ih =>
    unfold Program.insert
    split
    · simp [Program.find, Ne.symm h]
    · split
      · rename_i h2
        simp [Program.find, Ne.symm h, ← h2]
      · simp only [Program.find, ih]

theorem Program.risingFrom_insert (p : ProgramSlot) (l : Program) (lo : Nat) (hp : lo ≤ p.addr)
    (hl : Program.risingFrom lo l = true) : Program.risingFrom lo (Program.insert p l) = true := by
  induction l generalizing lo with
  | nil => simp [Program.insert, Program.risingFrom, hp]
  | cons q rest ih =>
    simp only [Program.risingFrom, Bool.and_eq_true, decide_eq_true_eq] at hl
    unfold Program.insert
    split
    · simp only [Program.risingFrom, Bool.and_eq_true, decide_eq_true_eq]
      exact ⟨hp, by omega, hl.2⟩
    · split
      · rename_i h2
        simp only [Program.risingFrom, Bool.and_eq_true, decide_eq_true_eq]
        exact ⟨hp, h2 ▸ hl.2⟩
      · simp only [Program.risingFrom, Bool.and_eq_true, decide_eq_true_eq]
        exact ⟨hl.1, ih _ (by omega) hl.2⟩

theorem Program.mem_insert (p q : ProgramSlot) (l : Program) (h : q ∈ Program.insert p l) : q = p ∨ q ∈ l := by
  induction l with
  | nil => exact .inl (by simpa [Program.insert] using h)
  | cons x rest ih =>
    unfold Program.insert at h
    split at h
    · simpa using h
    · split at h
      · rcases List.mem_cons.mp h with h | h
        · exact .inl h
        · exact .inr (List.mem_cons_of_mem _ h)
      · rcases List.mem_cons.mp h with h | h
        · exact .inr (by simp [h])
        · exact (ih h).imp id (List.mem_cons_of_mem _)

/-- Placing an instruction at an address keeps the program's canonical form. -/
theorem Program.wf_insert (p : ProgramSlot) (l : Program) (hp : p.addr < 2 ^ 16) (hl : Program.wf l = true) :
    Program.wf (Program.insert p l) = true := by
  simp only [Program.wf, Bool.and_eq_true, List.all_eq_true, decide_eq_true_eq] at hl ⊢
  refine ⟨Program.risingFrom_insert p l 0 (Nat.zero_le _) hl.1, fun q hq => ?_⟩
  rcases Program.mem_insert p q l hq with rfl | h
  · exact hp
  · exact hl.2 q h

theorem State.load_wf (s : State) (a : Word) (r : Record) (len : Len) (h : Program.wf s.program = true) :
    Program.wf (s.load a r len).program = true :=
  Program.wf_insert _ _ a.isLt h

theorem State.supplied_withFetchWord (s : State) (n w : Nat) : (s.withFetchWord n w).supplied =
    some ⟨s.ip.toNat, BitVec.ofNat 100 (w % 2 ^ n), BitVec.ofNat 4 (w % 2 ^ n / 2 ^ 100)⟩ :=
  Program.find_insert_self ⟨s.ip.toNat, _, _⟩ s.program

end Sys2Proof.Machine
end

