-- ==== Sys2Proof/Tests/Slice0.lean ====
section
/-! SUPPORT. Small tests, each expected value from the spec (95_test_vectors.md, or the rule a test names), and for each
statement with hypotheses a witness: concrete data that meets them all, at the ends of their ranges. -/

namespace Sys2Proof.Tests

open Sys2Proof Sys2Proof.Machine Sys2Proof.Safety

/-! ### Helpers -/

/-- The reset state but for `ip`, `flags` and some word registers. -/
def start (ip flags : Word) (regs : List (WordReg × Word)) : State :=
  { State.reset with ip := ip, flags := flags, regs := regs.foldl (fun f p => RegFile.setRw f p.1 p.2) State.reset.regs }

/-- The state after one instruction. -/
def after (i : Instr) (s : State) : Option State :=
  match exec i s with
  | .next t => some t
  | _ => none

/-- The state after one step. -/
def afterStep (s : State) : Option State :=
  match step s with
  | .next t => some t
  | _ => none

/-- A record decodes to a fault. -/
def faults (r : Record) (c : FaultCode) (k : Slot) : Prop := decode r 2 = .error ⟨c, k⟩

/-- A record is the encoding of an instruction, and decodes to it. -/
def isRecordOf (r : Record) (i : Instr) : Prop := decode r i.len = .ok i ∧ encode i = r

/-- What the tests of ADD, SUB and CMP look at. -/
def seen (r : WordReg) (t : State) : Word × Word × Word := (t.rw r, t.flags, t.ip)

/-! ### WellFormed refuses each ill-formed shape (R75, R93 checks 4 and 5) -/

theorem smoke_movRR : (Instr.movRR 2 (.byte .al) (.word .bx)).wellFormed = false := by decide
theorem smoke_addRR : (Instr.addRR 2 (.word .ax) (.byte .bl)).wellFormed = false := by decide
theorem smoke_subRR : (Instr.subRR 2 (.byte .bh) (.word .bx)).wellFormed = false := by decide
theorem smoke_cmpRR : (Instr.cmpRR 2 (.word .si) (.byte .dh)).wellFormed = false := by decide
theorem smoke_movRI : (Instr.movRI 3 (.byte .al) (.imm16 1)).wellFormed = false := by decide
theorem smoke_addRI : (Instr.addRI 3 (.byte .ah) (.imm16 0)).wellFormed = false := by decide
theorem smoke_subRI : (Instr.subRI 3 (.byte .cl) (.imm16 0xFFFF)).wellFormed = false := by decide
theorem smoke_cmpRI : (Instr.cmpRI 3 (.byte .dh) (.imm16 0x24)).wellFormed = false := by decide
theorem smoke_admitted : (Instr.addRI 3 (.word .ax) (.imm8 1)).wellFormed = true := by decide

/-! ### Records written out from R65 and R66; those of 95_test_vectors.md where it has one -/

/-- MOV DL, CH (M3): op 0, A1 register 2, A2 register 5. -/
theorem decode_movRR : isRecordOf 0x00000000000000A1000000410 (.movRR 2 (.byte .dl) (.byte .ch)) := ⟨by decide, by decide⟩
/-- `mov al, 0xFF` of P3. -/
theorem decode_movRI : isRecordOf 0x0000000000FF0004000000010 (.movRI 2 (.byte .al) (.imm8 0xFF)) := ⟨by decide, by decide⟩
/-- `add ah, ah` of P3. -/
theorem decode_addRR : isRecordOf 0x0000000000000081000000811 (.addRR 2 (.byte .ah) (.byte .ah)) := ⟨by decide, by decide⟩
/-- V1. -/
theorem decode_addRI : isRecordOf 0x0000000000010004000000611 (.addRI 2 (.byte .bl) (.imm8 1)) := ⟨by decide, by decide⟩
/-- `sub bx, dx` of P2. -/
theorem decode_subRR : isRecordOf 0x0000000000000149000001692 (.subRR 2 (.word .bx) (.word .dx)) := ⟨by decide, by decide⟩
/-- V2. -/
theorem decode_subRI : isRecordOf 0x000000000001000C000001092 (.subRI 2 (.word .ax) (.imm16 1)) := ⟨by decide, by decide⟩
/-- `cmp dx, bx` of P2. -/
theorem decode_cmpRR : isRecordOf 0x0000000000000169000001493 (.cmpRR 2 (.word .dx) (.word .bx)) := ⟨by decide, by decide⟩
/-- `cmp ah, 0x24` of P3. -/
theorem decode_cmpRI : isRecordOf 0x0000000000240004000000813 (.cmpRI 3 (.byte .ah) (.imm8 0x24)) := ⟨by decide, by decide⟩
/-- `jnz $+4` of P3. -/
theorem decode_jnz : isRecordOf 0x0000000000000000000200054 (.jnz 2 2) := ⟨by decide, by decide⟩
/-- `jz $+5` of P2. -/
theorem decode_jz : isRecordOf 0x0000000000000000000300055 (.jz 2 3) := ⟨by decide, by decide⟩
/-- `jp $+4` of P3. -/
theorem decode_jp : isRecordOf 0x0000000000000000000200056 (.jp 2 2) := ⟨by decide, by decide⟩
/-- `jc $+5` of P2. -/
theorem decode_jc : isRecordOf 0x0000000000000000000300057 (.jc 2 3) := ⟨by decide, by decide⟩
/-- V3. -/
theorem decode_loopnz : isRecordOf 0x000000000000000000FC00058 (.loopnz 2 0xFC) := ⟨by decide, by decide⟩

/-- `mov al, 0xFF` and `jc $+5` with every ignored bit set (R73): A1 [15:9], es and val of a register; es, [15:5] and
val[15:8] of a byte immediate; all but the byte of a relative jump; all but the kind of an empty operand. -/
theorem decode_ignores_bits :
    decode 0xFFFFFFF8FFFFFFF4FFFFFE110 2 = .ok (.movRI 2 (.byte .al) (.imm8 0xFF)) ∧
      decode 0xFFFFFFF8FFFFFFF8FF03FFFD7 2 = .ok (.jc 2 3) := by decide

theorem table_word : decodeTableWord 104 (0x0000000000010004000000611 + 2 * 2 ^ 100) = some (.addRI 2 (.byte .bl) (.imm8 1)) ∧
    decodeTableWord 104 9 = none := by decide

/-! ### The faults of 95_test_vectors.md 2.10 -/

/-- X1 to X11. -/
theorem faults_X1_to_X11 :
    faults 0x0000000000000000000000009 .unsupportedOpcode .opcode ∧
    faults 0x000000000000016900000109F .unsupportedOpcode .opcode ∧
    faults 0x000000000010001A000001090 .unsupportedMemorySource .operand2 ∧
    faults 0x0000000000000003000000011 .unsupportedMemorySource .operand2 ∧
    faults 0x000000000010000E000001091 .unsupportedInvalidSource .operand2 ∧
    faults 0x0000000000000007000001092 .unsupportedInvalidSource .operand2 ∧
    faults 0x0000000000000109000500040 .invalidDestination .operand1 ∧
    faults 0x00000000000001490010001A0 .unimplemented .operand1 ∧
    faults 0x0000000000010004000000033 .unimplemented .operand1 ∧
    faults 0x0000000000000109000400051 .invalidOperand .operand1 ∧
    faults 0x000000000000001A000100041 .unsupportedMemorySource .operand2 := by
  unfold faults
  decide

/-- X12 to X22. -/
theorem faults_X12_to_X22 :
    faults 0x0000000000040005000001091 .grammarViolation .operand2 ∧
    faults 0x0000000000000000000001090 .grammarViolation .operand2 ∧
    faults 0x0000000000000109000000001 .grammarViolation .operand1 ∧
    faults 0x0000000000000061000001091 .grammarViolation .operand2 ∧
    faults 0x000000000001000C000000011 .grammarViolation .operand2 ∧
    faults 0x0000000000000169000001011 .grammarViolation .operand1 ∧
    faults 0x0010000E00000169000001091 .grammarViolation .attached ∧
    faults 0x0000000000000000000400044 .grammarViolation .operand1 ∧
    faults 0x00000000000000000010001A5 .unsupportedMemorySource .operand1 ∧
    faults 0x0000000000000109000300057 .grammarViolation .operand2 ∧
    faults 0x0000000000000000000000008 .grammarViolation .operand1 := by
  unfold faults
  decide

/-- P4: `mov [0x0010], dx` at 0x0006 halts with (5, 1) and commits nothing. -/
theorem fault_commits_nothing :
    (afterStep ((start 6 0x55 []).withFetchWord 104 (0x00000000000001490010000A0 + 4 * 2 ^ 100))).map
      (fun t => (t.halted, t.fault, t.ip, t.flags, t.rw .dx)) =
    some (true, ⟨.unimplemented, .operand1⟩, 6, 0x55, 0) := by decide

/-- X23: `mov ax, 0` supplied to a halted block changes nothing. -/
theorem halted_stays :
    (afterStep (({ start 0x40 0 [(.ax, 0x1111)] with halted := true, fault := ⟨.grammarViolation, .operand2⟩ }).withFetchWord
      104 (0x000000000000000C000001090 + 3 * 2 ^ 100))).map (fun t => (t.halted, t.fault, t.ip, t.rw .ax)) =
    some (true, ⟨.grammarViolation, .operand2⟩, 0x40, 0x1111) := by decide

/-- X23: reset while halted. -/
theorem reset_while_halted :
    (afterStep { start 0x40 0x55 [(.ax, 0x1111)] with
      halted := true, fault := ⟨.grammarViolation, .operand2⟩, resetIn := true }) = some State.reset := by decide

/-- V1 through a step: the record at `ip`, its length 2. -/
theorem step_runs_V1 :
    (afterStep ((start 0 0 [(.bx, 0x7F)]).withFetchWord 104 (0x0000000000010004000000611 + 2 * 2 ^ 100))).map (seen .bx) =
    some (0x80, 0x890, 2) := by decide

/-! ### The registers (R22 to R27) -/

/-- V5: MOV AL after MOV AH leaves AH. -/
theorem aliasing_V5 : (after (.movRI 2 (.byte .al) (.imm8 0xC3)) (start 0 0 [(.ax, 0x5A00)])).map (fun t => (t.rw .ax, t.rb .ah)) =
    some (0x5AC3, 0x5A) := by decide

/-- R23: AX is bytes 0 and 1 of the buffer, DI bytes 14 and 15, the low byte first. -/
theorem buffer_layout : (start 0 0 [(.ax, 0x1234), (.di, 0xABCD)]).regs.toList =
    [0x34, 0x12, 0, 0, 0, 0, 0, 0, 0, 0, 0, 0, 0, 0, 0xCD, 0xAB] := by decide

/-! ### The instructions -/

/-- M3: MOV DL, CH. -/
theorem movRR_M3 : (after (.movRR 2 (.byte .dl) (.byte .ch)) (start 0 0x41 [(.cx, 0xBEEF)])).map
    (fun t => (t.rw .dx, t.rw .cx, t.flags, t.ip)) = some (0x00BE, 0xBEEF, 0x41, 2) := by decide
/-- M4: MOV SI, BX. -/
theorem movRR_M4 : (after (.movRR 2 (.word .si) (.word .bx)) (start 0 0 [(.bx, 0x8001)])).map (fun t => (t.rw .si, t.ip)) =
    some (0x8001, 2) := by decide
/-- M1: MOV AL, 0xFF. -/
theorem movRI_M1 : (after (.movRI 2 (.byte .al) (.imm8 0xFF)) (start 0 0 [(.ax, 0x1234)])).map (fun t => (t.rw .ax, t.obs)) =
    some (0x12FF, ⟨some (.byte .al), 0x1234, 0x12FF⟩) := by decide
/-- M5: MOV AX, imm8 0x80. -/
theorem movRI_M5 : (after (.movRI 2 (.word .ax) (.imm8 0x80)) (start 0 0 [])).map (fun t => (t.rw .ax, t.ip)) =
    some (0xFF80, 2) := by decide
/-- P3 step 5: `add ah, ah` doubles AH and clears CF, AF and ZF. -/
theorem addRR_P3 : (after (.addRR 2 (.byte .ah) (.byte .ah)) (start 9 0x55 [(.ax, 0x1200)])).map (seen .ax) =
    some (0x2400, 0x04, 0xB) := by decide
/-- A16.1 with the source in a register: 0x8000 + 0x8000, CF PF ZF OF. -/
theorem addRR_A16_1 : (after (.addRR 2 (.word .bx) (.word .dx)) (start 0 0 [(.bx, 0x8000), (.dx, 0x8000)])).map (seen .bx) =
    some (0, 0x845, 2) := by decide
/-- V1. -/
theorem addRI_V1 : (after (.addRI 2 (.byte .bl) (.imm8 1)) (start 0 0 [(.bx, 0x7F)])).map (seen .bx) =
    some (0x80, 0x890, 2) := by decide
/-- R107: ADD AX, imm8 0xFF subtracts 1 with CF = 1. -/
theorem addRI_sign_extends : (after (.addRI 3 (.word .ax) (.imm8 0xFF)) (start 0 0 [(.ax, 0x0100)])).map
    (fun t => (t.rw .ax, t.cf, t.ip)) = some (0x00FF, true, 3) := by decide
/-- P2 step 5: `sub bx, dx`, AF alone. -/
theorem subRR_P2 : (after (.subRR 2 (.word .bx) (.word .dx)) (start 0xD 0x85 [(.bx, 0x1000), (.dx, 0x0FFF)])).map (seen .bx) =
    some (1, 0x10, 0xF) := by decide
/-- R108: SUB AX, AX. -/
theorem subRR_self : (after (.subRR 2 (.word .ax) (.word .ax)) (start 0 0x8D5 [(.ax, 0x8001)])).map (seen .ax) =
    some (0, 0x44, 2) := by decide
/-- V2. -/
theorem subRI_V2 : (after (.subRI 2 (.word .ax) (.imm16 1)) (start 0 0 [])).map (seen .ax) = some (0xFFFF, 0x95, 2) := by decide
/-- S8.11: 0 - (-128), CF SF OF; BH is left. -/
theorem subRI_S8_11 : (after (.subRI 2 (.byte .bl) (.imm8 0x80)) (start 0 0 [(.bx, 0x7700)])).map (seen .bx) =
    some (0x7780, 0x881, 2) := by decide
/-- C1: CF PF SF, no destination. -/
theorem cmpRR_C1 : (after (.cmpRR 2 (.word .dx) (.word .bx)) (start 0 0 [(.dx, 0x0FFF), (.bx, 0x1000)])).map
    (fun t => (seen .dx t, t.rw .bx, t.obs.dest)) = some ((0x0FFF, 0x85, 2), 0x1000, none) := by decide
/-- C2: PF ZF. -/
theorem cmpRR_C2 : (after (.cmpRR 2 (.word .ax) (.word .cx)) (start 0 0 [(.ax, 5), (.cx, 5)])).map (seen .ax) =
    some (5, 0x44, 2) := by decide
/-- C3: CF SF OF. -/
theorem cmpRI_C3 : (after (.cmpRI 2 (.byte .al) (.imm8 0x80)) (start 0 0 [])).map (seen .ax) = some (0, 0x881, 2) := by decide
/-- C4: AF OF. -/
theorem cmpRI_C4 : (after (.cmpRI 3 (.byte .ah) (.imm8 1)) (start 0 0 [(.ax, 0x8000)])).map (seen .ax) =
    some (0x8000, 0x810, 3) := by decide
/-- J10: the target wraps past 0xFFFF. -/
theorem jnz_J10 : (after (.jnz 2 0x7F) (start 0xFFEE 0 [])).map (fun t => t.ip) = some 0x006F := by decide
/-- J13: not taken, `ip_seq` wraps. -/
theorem jnz_J13 : (after (.jnz 2 0x10) (start 0xFFFF 0x40 [])).map (fun t => t.ip) = some 1 := by decide
/-- J11: the most negative displacement. -/
theorem jz_J11 : (after (.jz 2 0x80) (start 0x10 0x40 [])).map (fun t => (t.ip, t.flags)) = some (0xFF92, 0x40) := by decide
/-- J4. -/
theorem jz_J4 : (after (.jz 2 0xF0) (start 0x10 0 [])).map (fun t => t.ip) = some 0x12 := by decide
/-- J5. -/
theorem jp_J5 : (after (.jp 2 5) (start 0x20 0x04 [])).map (fun t => t.ip) = some 0x27 := by decide
/-- J6. -/
theorem jp_J6 : (after (.jp 2 5) (start 0x20 0 [])).map (fun t => t.ip) = some 0x22 := by decide
/-- J7. -/
theorem jc_J7 : (after (.jc 2 3) (start 0xA 1 [])).map (fun t => t.ip) = some 0xF := by decide
/-- J8. -/
theorem jc_J8 : (after (.jc 2 3) (start 0xA 0 [])).map (fun t => t.ip) = some 0xC := by decide
/-- L1: CX = 0 wraps, and the loop is taken. -/
theorem loopnz_L1 : (after (.loopnz 2 0xFC) (start 0x10 0 [])).map (seen .cx) = some (0xFFFF, 0, 0xE) := by decide
/-- V3: CX = 1 is not taken; `obs.dest` is 9. -/
theorem loopnz_V3 : (after (.loopnz 2 0xFC) (start 0x10 0 [(.cx, 1)])).map
    (fun t => (seen .cx t, t.outputs.obsDest, t.obs.pre, t.obs.post)) = some ((0, 0, 0x12), 9, 1, 0) := by decide

/-! ### Parity, the written form, and the byte forms -/

/-- R125's table, rows 0 and 8. -/
theorem parity_rows : (List.range 16).map (fun n => parityFlag (BitVec.ofNat 8 n)) =
    [true, false, false, true, false, true, true, false, false, true, true, false, true, false, false, true] ∧
    (List.range 16).map (fun n => parityFlag (BitVec.ofNat 8 (0x80 + n))) =
    [false, true, true, false, true, false, false, true, true, false, false, true, false, true, true, false] := by decide

/-- V10: the bytes 0x04, 0xFE, 0xFB and 0x80. -/
theorem written_V10 : [0x04, 0xFE, 0xFB, 0x80].map relText = ["$+6", "$+0", "$-3", "$-126"] := by decide

/-- The lines of P1 and P2 that R80 fixes. -/
theorem written_lines : asmText (.loopnz 2 0xFB) = "loopnz $-3" ∧ asmText (.cmpRR 2 (.word .dx) (.word .bx)) = "cmp dx, bx" := by
  decide

/-- The 8086 bytes of P1's `add ax, 5`, P2's `sub bx, 1` and `cmp dx, bx`, P3's `cmp ah, 0x24` and `mov al, 0xFF`, and P5's
`loopnz $-2`. -/
theorem bytes_of_programs :
    readBytes [0x05, 0x05, 0x00] = some (.addRI 3 (.word .ax) (.imm16 5)) ∧
    readBytes [0x83, 0xEB, 0x01] = some (.subRI 3 (.word .bx) (.imm8 1)) ∧
    readBytes [0x39, 0xDA] = some (.cmpRR 2 (.word .dx) (.word .bx)) ∧
    readBytes [0x80, 0xFC, 0x24] = some (.cmpRI 3 (.byte .ah) (.imm8 0x24)) ∧
    readBytes [0xB0, 0xFF] = some (.movRI 2 (.byte .al) (.imm8 0xFF)) ∧
    readBytes [0xE0, 0xFC] = some (.loopnz 2 0xFC) := by decide

/-! ### Witnesses: concrete data that meets the hypotheses of each statement, each clause at the ends of its range -/

/-- A halted state. -/
def haltedState : State := { start 0x40 0 [(.ax, 0x1111)] with halted := true, fault := ⟨.grammarViolation, .operand2⟩ }

/-- A state whose program holds V1's record at `ip`. -/
def loadedState : State := (start 0 0 [(.bx, 0x7F)]).load 0 0x0000000000010004000000611 2

/-- A state whose program holds X8's record, a memory destination, at `ip`. -/
def faultingState : State := (start 0x40 0 []).load 0x40 0x00000000000001490010001A0 4

theorem witness_ResetInputGivesResetState :
    ({ haltedState with resetIn := true }).resetIn = true ∧ ({ haltedState with resetIn := true }).halted = true ∧
      step { haltedState with resetIn := true } = .next State.reset ∧ State.reset.halted = false :=
  ⟨rfl, rfl, rfl, rfl⟩

theorem witness_HaltedBlockTakesNoStep : haltedState.halted = true ∧ haltedState.resetIn = false := by decide

theorem witness_StepRunsDecodedInstruction :
    loadedState.halted = false ∧ loadedState.resetIn = false ∧
      loadedState.supplied = some ⟨0, 0x0000000000010004000000611, 2⟩ ∧
      decode 0x0000000000010004000000611 2 = .ok (.addRI 2 (.byte .bl) (.imm8 1)) := by decide

theorem witness_NoRecordNoChange : (start 0xFFFF 0 []).resetIn = false ∧ (start 0xFFFF 0 []).supplied = none := by decide

theorem witness_FetchWordRunsNext : 0 < 2 ^ 104 ∧ 2 ^ 104 - 1 < 2 ^ 104 := by decide

theorem witness_OnlyFaultsHalt :
    (loadedState.halted = false ∧ loadedState.resetIn = false ∧
      loadedState.supplied = some ⟨0, 0x0000000000010004000000611, 2⟩ ∧ ∃ t, step loadedState = .next t) ∧
    (faultingState.halted = false ∧ faultingState.resetIn = false ∧
      faultingState.supplied = some ⟨0x40, 0x00000000000001490010001A0, 4⟩ ∧ ∃ t, step faultingState = .next t) :=
  ⟨⟨rfl, rfl, rfl, _, rfl⟩, ⟨rfl, rfl, rfl, _, rfl⟩⟩

/-- AX and DI; BL and AH, the two sides of `i < 4`, and BH. -/
theorem witness_RegisterReadsOfBuffer :
    (2 * WordReg.ax.num.toNat = 0 ∧ 2 * WordReg.ax.num.toNat + 1 = 1) ∧
    (2 * WordReg.di.num.toNat = 14 ∧ 2 * WordReg.di.num.toNat + 1 = 15) ∧
    (ByteReg.bl.num.toNat < 4 ∧ 2 * ByteReg.bl.num.toNat = 6) ∧
    (¬ ByteReg.ah.num.toNat < 4 ∧ 2 * (ByteReg.ah.num.toNat - 4) + 1 = 1) ∧
    2 * (ByteReg.bh.num.toNat - 4) + 1 = 7 := by decide

theorem witness_WritesChangeExactlyTheirBytes :
    ByteReg.al ≠ .ah ∧ ByteReg.ah.parent ≠ .cx ∧ WordReg.sp ≠ .bp := by decide

theorem witness_MovRegisterCopies : (Reg.byte .al).width = (Reg.byte .bh).width ∧ (Reg.word .ax).width = (Reg.word .di).width := by
  decide

theorem witness_MovImmediateExtends : (Imm.imm8 0x80).width.bits ≤ (Reg.byte .bh).bits ∧
    (Imm.imm8 0x80).width.bits ≤ (Reg.word .ax).bits ∧ (Imm.imm16 0xFFFF).width.bits ≤ (Reg.word .di).bits := by decide

theorem witness_AddRegisterSum : (Reg.byte .al).width = (Reg.byte .al).width ∧ (Reg.word .bx).width = (Reg.word .dx).width := by
  decide

theorem witness_AddImmediateSum : (Imm.imm8 0xFF).width.bits ≤ (Reg.byte .al).bits ∧
    (Imm.imm8 0xFF).width.bits ≤ (Reg.word .ax).bits ∧ (Imm.imm16 0x8000).width.bits ≤ (Reg.word .bx).bits := by decide

theorem witness_SubRegisterDifference :
    (Reg.byte .dl).width = (Reg.byte .ch).width ∧ (Reg.word .ax).width = (Reg.word .ax).width := by decide

theorem witness_SubImmediateDifference : (Imm.imm8 0x80).width.bits ≤ (Reg.byte .bl).bits ∧
    (Imm.imm8 1).width.bits ≤ (Reg.word .bx).bits ∧ (Imm.imm16 0).width.bits ≤ (Reg.word .sp).bits := by decide

theorem witness_CmpRegisterFlagsOnly :
    (Reg.byte .ah).width = (Reg.byte .al).width ∧ (Reg.word .dx).width = (Reg.word .bx).width := by decide

theorem witness_CmpImmediateFlagsOnly : (Imm.imm8 0x24).width.bits ≤ (Reg.byte .ah).bits ∧
    (Imm.imm8 0xFF).width.bits ≤ (Reg.word .si).bits ∧ (Imm.imm16 0x7FFF).width.bits ≤ (Reg.word .ax).bits := by decide

/-- Each jump's flag at 0 and at 1. -/
theorem witness_ConditionalJumps :
    ((!(start 0 0 []).zf) = true ∧ (!(start 0 0x40 []).zf) = false) ∧
    ((start 0 0x40 []).zf = true ∧ (start 0 0 []).zf = false) ∧
    ((start 0 0x04 []).pf = true ∧ (start 0 0 []).pf = false) ∧
    ((start 0 0x01 []).cf = true ∧ (start 0 0 []).cf = false) := by decide

/-- Taken (CX = 2), and not taken by the counter (CX = 1) and by ZF. -/
theorem witness_LoopnzDecrementsAndLoops :
    (∃ t, exec (.loopnz 2 0xFC) (start 0 0 [(.cx, 2)]) = .next t ∧ t.rw .cx ≠ 0 ∧ (start 0 0 [(.cx, 2)]).zf = false) ∧
    (∃ t, exec (.loopnz 2 0xFC) (start 0 0 [(.cx, 1)]) = .next t ∧ ¬(t.rw .cx ≠ 0 ∧ (start 0 0 [(.cx, 1)]).zf = false)) ∧
    (∃ t, exec (.loopnz 2 0xFC) (start 0 0x40 []) = .next t ∧ ¬(t.rw .cx ≠ 0 ∧ (start 0 0x40 []).zf = false)) :=
  ⟨⟨_, rfl, by decide, by decide⟩, ⟨_, rfl, by decide⟩, ⟨_, rfl, by decide⟩⟩

/-- CX = 0 with ZF 0, CX = 1 with ZF 1, and ZF = 1 with CX = 0; the runs from CX = 0 with ZF 0, of which 65534 and 65535 are
the last taken one and the last one. -/
theorem witness_LoopnzCornerCases :
    (∃ t, exec (.loopnz 2 0xFC) (start 0x10 0 []) = .next t ∧ (start 0x10 0 []).rw .cx = 0 ∧ (start 0x10 0 []).zf = false) ∧
    (∃ t, exec (.loopnz 2 0xFC) (start 0x10 0x40 [(.cx, 1)]) = .next t ∧ (start 0x10 0x40 [(.cx, 1)]).rw .cx = 1 ∧
      (start 0x10 0x40 [(.cx, 1)]).zf = true) ∧
    (∃ t, exec (.loopnz 2 0xFC) (start 0x10 0x40 []) = .next t ∧ (start 0x10 0x40 []).zf = true) :=
  ⟨⟨_, rfl, by decide, by decide⟩, ⟨_, rfl, by decide, by decide⟩, ⟨_, rfl, by decide⟩⟩

/-- CX = 0 at the last of 65536 iterations; CX = 2 at the first, taken, and the last. -/
theorem witness_LoopnzRunsCounterTimes :
    (start 0 0 []).zf = false ∧ 65535 < loopCount ((start 0 0 []).rw .cx) ∧
      65535 + 1 = loopCount ((start 0 0 []).rw .cx) ∧
      0 + 1 < loopCount ((start 0 0 [(.cx, 2)]).rw .cx) ∧ 1 + 1 = loopCount ((start 0 0 [(.cx, 2)]).rw .cx) := by decide

theorem witness_IllFormedInstructionFaults : (Instr.addRR 2 (.word .ax) (.byte .bl)).wellFormed = false ∧
    (Instr.cmpRI 3 (.byte .al) (.imm16 1)).wellFormed = false := by decide

theorem witness_OnlyArithmeticWritesFlags :
    ((Instr.movRR 2 (.word .ax) (.word .bx)).wellFormed = true ∧ arithDest (.movRR 2 (.word .ax) (.word .bx)) = none) ∧
    ((Instr.cmpRI 3 (.byte .ah) (.imm8 1)).wellFormed = true ∧ arithDest (.cmpRI 3 (.byte .ah) (.imm8 1)) = some (.byte .ah)) := by
  decide

/-- A step that runs an instruction, and one with the `reset` input. -/
theorem witness_ReservedFlagBitsAreNotWritten :
    (∃ t, step loadedState = .next t) ∧ loadedState.resetIn = false ∧
      (∃ t, step { haltedState with resetIn := true } = .next t) ∧ ({ haltedState with resetIn := true }).resetIn = true :=
  ⟨⟨_, rfl⟩, rfl, ⟨_, rfl⟩, rfl⟩

/-- Written registers at the two sides of index 8 and at index 15, LOOPNZ, and CMP; a fault and a halted state. -/
theorem witness_ObservationOfEachStep :
    (writtenReg (.addRR 2 (.byte .bh) (.byte .al)) = some (.byte .bh) ∧ (Reg.byte .bh).idx = 7 ∧ WordReg.bx.num.toNat = 7 % 4) ∧
    (writtenReg (.movRI 3 (.word .ax) (.imm16 0)) = some (.word .ax) ∧ (Reg.word .ax).idx = 8 ∧ WordReg.ax.num.toNat = 8 - 8) ∧
    ((Reg.word .di).idx = 15 ∧ WordReg.di.num.toNat = 15 - 8) ∧
    (writtenReg (.loopnz 2 0) = some (.word .cx) ∧ (Reg.word .cx).idx = 9) ∧
    writtenReg (.cmpRR 2 (.word .ax) (.word .bx)) = none ∧
    (Instr.addRR 2 (.byte .bh) (.byte .al)).wellFormed = true ∧
    decode 0x00000000000001490010001A0 4 = .error ⟨.unimplemented, .operand1⟩ ∧ haltedState.halted = true := by decide

/-- Two forms, with other registers and lengths, in states that differ in flags, `ip` and another register: ADD BX, DX with
DX = 0xFFFF and ADD AX, imm8 0xFF; and the same at byte width for CMP. -/
theorem witness_FlagUnitIsCombinational :
    ((Instr.addRR 2 (.word .bx) (.word .dx)).wellFormed = true ∧ (Instr.addRI 3 (.word .ax) (.imm8 0xFF)).wellFormed = true ∧
      arithDest (.addRR 2 (.word .bx) (.word .dx)) = some (.word .bx) ∧
      arithDest (.addRI 3 (.word .ax) (.imm8 0xFF)) = some (.word .ax) ∧
      (Instr.addRR 2 (.word .bx) (.word .dx)).opcode = (Instr.addRI 3 (.word .ax) (.imm8 0xFF)).opcode ∧
      (Reg.word .bx).width = (Reg.word .ax).width ∧
      ((start 0 0 [(.bx, 0x8000), (.dx, 0xFFFF)]).read (.word .bx)).toNat =
        ((start 4 0x8D5 [(.ax, 0x8000), (.si, 1)]).read (.word .ax)).toNat ∧
      (sourcePattern (start 0 0 [(.bx, 0x8000), (.dx, 0xFFFF)]) (.word .bx) (.addRR 2 (.word .bx) (.word .dx))).toNat =
        (sourcePattern (start 4 0x8D5 [(.ax, 0x8000), (.si, 1)]) (.word .ax) (.addRI 3 (.word .ax) (.imm8 0xFF))).toNat) ∧
    ((Instr.cmpRR 2 (.byte .ah) (.byte .al)).wellFormed = true ∧ (Instr.cmpRI 3 (.byte .dl) (.imm8 0x80)).wellFormed = true ∧
      (Instr.cmpRR 2 (.byte .ah) (.byte .al)).opcode = (Instr.cmpRI 3 (.byte .dl) (.imm8 0x80)).opcode ∧
      (Reg.byte .ah).width = (Reg.byte .dl).width ∧
      (sourcePattern (start 0 0 [(.ax, 0x0080)]) (.byte .ah) (.cmpRR 2 (.byte .ah) (.byte .al))).toNat =
        (sourcePattern (start 9 1 []) (.byte .dl) (.cmpRI 3 (.byte .dl) (.imm8 0x80))).toNat) := by decide

/-- Each of the six arithmetic constructors, at both widths among them. -/
theorem witness_arithmetic : ∀ p ∈
    [ (Instr.addRR 2 (.byte .ah) (.byte .al), Reg.byte .ah), (.addRI 3 (.word .ax) (.imm8 0xFF), .word .ax),
      (.subRR 2 (.word .ax) (.word .ax), .word .ax), (.subRI 2 (.byte .bl) (.imm8 0x80), .byte .bl),
      (.cmpRR 2 (.word .dx) (.word .bx), .word .dx), (.cmpRI 3 (.byte .ah) (.imm8 1), .byte .ah) ],
    p.1.wellFormed = true ∧ arithDest p.1 = some p.2 := by decide

theorem witness_ResultFlagsOfD1 : (Instr.subRI 2 (.byte .bl) (.imm8 0x80)).wellFormed = true ∧
    arithDest (.subRI 2 (.byte .bl) (.imm8 0x80)) = some (.byte .bl) := by decide

theorem witness_OverflowFromCombinedSign : (Instr.cmpRI 3 (.byte .ah) (.imm8 1)).wellFormed = true ∧
    arithDest (.cmpRI 3 (.byte .ah) (.imm8 1)) = some (.byte .ah) := by decide

/-- An ADD, a SUB and a CMP. -/
theorem witness_CarriesAndBorrows :
    ((Instr.addRI 3 (.word .ax) (.imm8 0xFF)).wellFormed = true ∧
      arithDest (.addRI 3 (.word .ax) (.imm8 0xFF)) = some (.word .ax) ∧ isAdd (.addRI 3 (.word .ax) (.imm8 0xFF)) = true) ∧
    ((Instr.subRR 2 (.word .bx) (.word .dx)).wellFormed = true ∧
      arithDest (.subRR 2 (.word .bx) (.word .dx)) = some (.word .bx) ∧ isAdd (.subRR 2 (.word .bx) (.word .dx)) = false) ∧
    isAdd (.cmpRR 2 (.word .bx) (.word .dx)) = false := by decide

theorem witness_CmpFlagsAreSubFlags :
    (∃ t u, exec (.cmpRR 2 (.word .dx) (.word .bx)) State.reset = .next t ∧
      exec (.subRR 2 (.word .dx) (.word .bx)) State.reset = .next u) ∧
    (∃ t u, exec (.cmpRI 3 (.word .dx) (.imm8 1)) State.reset = .next t ∧
      exec (.subRI 3 (.word .dx) (.imm8 1)) State.reset = .next u) :=
  ⟨⟨_, _, rfl, rfl⟩, ⟨_, _, rfl, rfl⟩⟩

theorem witness_WorkingValueFitsWidth : (Reg.byte .al).width = (Reg.byte .ah).width ∧
    (Reg.word .ax).width = (Reg.word .di).width ∧ (Imm.imm8 0x80).width.bits ≤ (Reg.word .ax).bits ∧
    (Imm.imm16 0x8000).width.bits ≤ (Reg.word .ax).bits := by decide

theorem witness_SameRegisterTwice :
    (∃ t, exec (.subRR 2 (.word .ax) (.word .ax)) (start 0 0 [(.ax, 0x8001)]) = .next t) ∧
    (∃ t, exec (.addRR 2 (.byte .al) (.byte .al)) (start 0 0 [(.ax, 0x00FF)]) = .next t) ∧
    (∃ t, exec (.movRR 2 (.word .ax) (.word .ax)) (start 0 0 [(.ax, 0x1234)]) = .next t) :=
  ⟨⟨_, rfl⟩, ⟨_, rfl⟩, ⟨_, rfl⟩⟩

theorem witness_ByteDestinationKeepsOtherHalf :
    (Instr.addRR 2 (.byte .ah) (.byte .al)).a1 = (Reg.byte .ah).operand ∧ ByteReg.al ≠ .ah ∧
      ∃ t, exec (.addRR 2 (.byte .ah) (.byte .al)) (start 0 0 [(.ax, 0x1234)]) = .next t :=
  ⟨rfl, by decide, _, rfl⟩

/-- Both forms; equal values, not taken, and the least and the greatest, taken, an imm8 0xFF being 0xFFFF beside a word. -/
theorem witness_JcAfterCmpIsUnsignedLess :
    (Reg.word .dx).width = (Reg.word .bx).width ∧
    ((start 0 0 [(.bx, 0xFFFF)]).rw .dx).toNat < ((start 0 0 [(.bx, 0xFFFF)]).rw .bx).toNat ∧
    (¬ ((start 0 0 []).rw .dx).toNat < ((start 0 0 []).rw .bx).toNat) ∧
    (Imm.imm8 0xFF).width.bits ≤ (Reg.word .dx).bits ∧
    ((start 0 0 [(.dx, 0xFFFE)]).rw .dx).toNat < (immPattern 16 (.imm8 0xFF)).toNat ∧
    (¬ ((start 0 0 [(.dx, 0xFFFF)]).rw .dx).toNat < (immPattern 16 (.imm8 0xFF)).toNat) := by decide

theorem witness_InstructionPointerHasTwoOutcomes :
    (Instr.addRI 2 (.byte .bl) (.imm8 1)).wellFormed = true ∧ relOf (.addRI 2 (.byte .bl) (.imm8 1)) = none ∧
      (Instr.loopnz 2 0x80).wellFormed = true ∧ relOf (.loopnz 2 0x80) = some 0x80 := by decide

/-- Each condition met; LOOPNZ at CX = 0 and at CX = 2, the two sides of 1; and the target of byte 0x80 at 0x0010, which is
written `$-126`, is 0xFF92 (J11). -/
theorem witness_WrittenOffsetNamesTheTarget :
    (start 0x10 0 []).zf = false ∧ (start 0x10 0x40 []).zf = true ∧ (start 0x10 0x04 []).pf = true ∧
      (start 0x10 0x01 []).cf = true ∧ (start 0x10 0 []).rw .cx ≠ 1 ∧ (start 0x10 0 [(.cx, 2)]).rw .cx ≠ 1 ∧
      ((start 0x10 0x40 []).ip.toNat + writtenOffset 0x80) % 2 ^ 16 = 0xFF92 := by decide

theorem witness_FaultCommitsNothing :
    decode 0x00000000000001490010001A0 4 = .error ⟨.unimplemented, .operand1⟩ ∧ faultingState.halted = false := by decide

/-- Tags 9 and 15. -/
theorem witness_ReservedOpcodeFaults : 9 ≤ opBits 0x0000000000000000000000009 ∧ 9 ≤ opBits 0x000000000000016900000109F ∧
    State.reset.halted = false := by decide

/-- Tags 0, 3, 4 and 8, with both memory kinds. -/
theorem witness_MemorySourceFaults :
    State.reset.halted = false ∧
    (opBits 0x000000000010001A000001090 = 0 ∧ kind2 0x000000000010001A000001090 = 2) ∧
    (opBits 0x0000000000000003000000013 = 3 ∧ kind2 0x0000000000000003000000013 = 3) ∧
    (opBits 0x0000000000000000000000024 = 4 ∧ kind1 0x0000000000000000000000024 = 2) ∧
    (opBits 0x0000000000000000000000038 = 8 ∧ kind1 0x0000000000000000000000038 = 3) := by decide

/-- Tags 0, 3, 4 and 8, with both kinds. -/
theorem witness_InvalidSourceFaults :
    State.reset.halted = false ∧
    (opBits 0x0000000000000006000000010 = 0 ∧ kind2 0x0000000000000006000000010 = 6) ∧
    (opBits 0x0000000000000007000000013 = 3 ∧ kind2 0x0000000000000007000000013 = 7) ∧
    (opBits 0x0000000000000000000000064 = 4 ∧ kind1 0x0000000000000000000000064 = 6) ∧
    (opBits 0x0000000000000000000000078 = 8 ∧ kind1 0x0000000000000000000000078 = 7) := by decide

/-- Each destination kind with a register source, the least and greatest tags among them. -/
theorem witness_BadDestinationFaults : State.reset.halted = false ∧ ∀ p ∈
    [ ((0x0000000000000001000000020 : Record), 0, 2), (0x0000000000000001000000033, 3, 3),
      (0x0000000000000001000000041, 1, 4), (0x0000000000000001000000052, 2, 5), (0x0000000000000001000000063, 3, 6),
      (0x0000000000000001000000070, 0, 7) ],
    opBits p.1 = p.2.1 ∧ opBits p.1 ≤ 3 ∧ kind1 p.1 = p.2.2 ∧ kind2 p.1 ∈ [0, 1, 4, 5] := by decide

/-- The opcode and the kinds the premises ask for, at a record for each branch: X12, X13 (check 1), X14 (2), X17 (3), X15 (4), X16 (5), X18 (6), and V1,
which passes. The branch conditions stand in the next theorem. -/
theorem witness_AluGrammarInOrder :
    [(0x0000000000040005000001091 : Record), 0x0000000000000000000001090, 0x0000000000000109000000001,
      0x0000000000000169000001011, 0x0000000000000061000001091, 0x000000000001000C000000011, 0x0010000E00000169000001091,
      0x0000000000010004000000611].map (fun r => (opBits r, kind1 r, kind2 r)) =
    [(1, 1, 5), (0, 1, 0), (1, 0, 1), (1, 1, 1), (1, 1, 1), (1, 1, 4), (1, 1, 1), (1, 1, 4)] := by decide

theorem witness_AluGrammarInOrder_branches :
    kind2 0x0000000000040005000001091 = 5 ∧ kind2 0x0000000000000000000001090 = 0 ∧
    kind1 0x0000000000000109000000001 = 0 ∧
    w1 0x0000000000000169000001011 ≠ wide1 0x0000000000000169000001011 ∧
    wide2 0x0000000000000061000001091 ≠ wide1 0x0000000000000061000001091 ∧
    (w2 0x000000000001000C000000011 = true ∧ wide1 0x000000000001000C000000011 = false) ∧
    kind3 0x0010000E00000169000001091 = 6 ∧ kind3 0x0000000000010004000000611 = 0 := by decide

/-- X19 and X22 (check 1), X21 (2), a jump with a displacement attached (3), and V3, which passes. -/
theorem witness_JumpGrammarInOrder :
    [(0x0000000000000000000400044 : Record), 0x0000000000000000000000008, 0x0000000000000109000300057,
      0x0000000600000000000300055, 0x000000000000000000FC00058].map (fun r => (opBits r, kind1 r)) =
    [(4, 4), (8, 0), (7, 5), (5, 5), (8, 5)] := by decide

theorem witness_JumpGrammarInOrder_branches :
    kind1 0x0000000000000000000400044 = 4 ∧ kind1 0x0000000000000000000000008 = 0 ∧
    kind2 0x0000000000000109000300057 = 1 ∧ kind3 0x0000000600000000000300055 = 6 ∧
    kind3 0x000000000000000000FC00058 = 0 := by decide

theorem witness_FaultsAreTheTablesPairs : decode 0x0010000E00000169000001091 2 = .error ⟨.grammarViolation, .attached⟩ := by decide

/-- An admitted record of each kind, and one that is not. -/
theorem witness_DecodeAcceptsAdmittedFormsOnly :
    decode 0x0000000000010004000000611 2 = .ok (.addRI 2 (.byte .bl) (.imm8 1)) ∧
      decode 0x000000000000000000FC00058 2 = .ok (.loopnz 2 0xFC) ∧
      decode 0x0000000000000000000000008 2 = .error ⟨.grammarViolation, .operand1⟩ := by decide

/-- Two different records that agree on the bits heeded. -/
theorem witness_UnnamedBitsAreIgnored :
    heededRecord 0xFFFFFFF8FFFFFFF4FFFFFE110 = heededRecord 0x0000000000FF0004000000010 ∧
      (0xFFFFFFF8FFFFFFF4FFFFFE110 : Record) ≠ 0x0000000000FF0004000000010 := by decide

theorem witness_DecodeOfEncode : (Instr.movRI 15 (.word .di) (.imm16 0xFFFF)).wellFormed = true ∧
    (Instr.jnz 0 0x80).wellFormed = true := by decide

theorem witness_EncodeOfDecode : decode 0xFFFFFFF8FFFFFFF8FF03FFFD7 0 = .ok (.jc 0 3) := by decide

/-- The invariant at a state with a program, and a step from it. -/
theorem witness_StepKeepsInvariant : Inv loadedState ∧ ∃ t, step loadedState = .next t :=
  ⟨{ reserved := fun n _ => by simp [loadedState, start, State.load, State.reset]
     haltedIffFault := by decide
     legal := by decide
     observed := fun _ h => nomatch h
     program := by decide },
   _, rfl⟩

/-- A state with all six flags set and the other bits 0, and SUB AX, AX there, for which the unit gives ZF and PF alone. -/
theorem witness_FlagsWordAfterArithmetic :
    reservedFlagsZero (start 0 0x8D5 []) ∧ (Instr.subRR 2 (.word .ax) (.word .ax)).wellFormed = true ∧
      arithDest (.subRR 2 (.word .ax) (.word .ax)) = some (.word .ax) ∧
      unitFlags (start 0 0x8D5 []) (.word .ax) (.subRR 2 (.word .ax) (.word .ax)) = ⟨false, true, false, true, false, false⟩ :=
  ⟨fun n hn => (definedFlagBits_getLsbD n).trans ((isFlagBit_false_iff n).2 hn), by decide, by decide, by decide⟩

theorem witness_ByteFormsAreAdmitted :
    readBytes [0x81, 0xEB, 0x34, 0x12] = some (.subRI 4 (.word .bx) (.imm16 0x1234)) ∧
      readBytes [0x74, 0x03] = some (.jz 2 3) := by decide

end Sys2Proof.Tests
end

section
/-! SUPPORT. The family 10_state.md: the state after reset, the register file, what a commit does to `flags` and `ip`, and
the invariant every step keeps. -/

namespace Sys2Proof

open Sys2Proof.Machine Sys2Proof.Safety

/-! ### The faults a decode can answer (R130, R136) -/

/-- A fault with a pair of R130's table and a code other than 0. -/
def TabledFault (f : FaultRecord) : Prop := legalFault f = true ∧ f.code ≠ .none

/-- A bind that answers an error has it from its first computation or from the continuation. -/
theorem bind_error_cases {ε α β : Type} {x : Except ε α} {k : α → Except ε β} {e : ε} (h : x >>= k = .error e) :
    x = .error e ∨ ∃ a, x = .ok a ∧ k a = .error e := by
  cases x with
  | error _ => cases h; exact .inl rfl
  | ok a => exact .inr ⟨a, rfl, h⟩

theorem grammarFault_tabled {slot : Slot} (h : slot ≠ .opcode) : TabledFault (grammarFault slot) := by
  cases slot with
  | opcode => exact absurd rfl h
  | operand1 | operand2 | attached => exact ⟨rfl, nofun⟩

/-- A source that faults does so with code 2 or 3, which R130 has at both operand slots (R131, R132). -/
theorem sourceFault_tabled {a : Operand} {c : FaultCode} (h : a.sourceFault = some c) :
    TabledFault ⟨c, .operand1⟩ ∧ TabledFault ⟨c, .operand2⟩ := by
  cases a with
  | register | immediate | relativeJump | empty => cases h
  | memoryDirect | effectiveAddress | displacement | invalid => cases h; exact ⟨⟨rfl, nofun⟩, rfl, nofun⟩

/-- A destination that faults does so with code 4, 5 or 6, which R130 has at operand 1 (R133 to R135). -/
theorem destination_error_tabled {a : Operand} {c : FaultCode} (h : a.destination = .error c) :
    TabledFault ⟨c, .operand1⟩ := by
  cases a with
  | register | empty => cases h
  | immediate | memoryDirect | effectiveAddress | relativeJump | displacement | invalid => cases h; exact ⟨rfl, nofun⟩

theorem checkAttached_error_tabled {a : Operand} {f : FaultRecord} (h : checkAttached a = .error f) :
    TabledFault f := by
  unfold checkAttached at h
  split at h
  · cases h
  · cases h; exact grammarFault_tabled nofun

theorem checkDestination_error_tabled {a : Operand} {f : FaultRecord} (h : checkDestination a = .error f) :
    TabledFault f := by
  unfold checkDestination at h
  split at h
  · split at h
    · cases h
    · cases h; exact grammarFault_tabled nofun
  · cases h; exact grammarFault_tabled nofun

/-- The last check of every admitted form: only the attached displacement can still fault. -/
theorem attached_then_ok_error_tabled {α : Type} {a : Operand} {x : α} {f : FaultRecord}
    (h : (checkAttached a >>= fun _ => .ok x) = .error f) : TabledFault f := by
  rcases bind_error_cases h with h | ⟨_, _, h⟩
  · exact checkAttached_error_tabled h
  · cases h

theorem aluGrammar_error_tabled {a1 a2 a3 : Operand} {f : FaultRecord} (h : aluGrammar a1 a2 a3 = .error f) :
    TabledFault f := by
  unfold aluGrammar at h
  split at h
  · rcases bind_error_cases h with h | ⟨d, _, h⟩
    · exact checkDestination_error_tabled h
    · split at h
      · cases h; exact grammarFault_tabled nofun
      · split at h
        · cases h; exact grammarFault_tabled nofun
        · exact attached_then_ok_error_tabled h
  · rcases bind_error_cases h with h | ⟨d, _, h⟩
    · exact checkDestination_error_tabled h
    · split at h
      · cases h; exact grammarFault_tabled nofun
      · exact attached_then_ok_error_tabled h
  · cases h; exact grammarFault_tabled nofun

theorem jumpGrammar_error_tabled {a1 a2 a3 : Operand} {f : FaultRecord} (h : jumpGrammar a1 a2 a3 = .error f) :
    TabledFault f := by
  unfold jumpGrammar at h
  split at h
  · split at h
    · cases h; exact grammarFault_tabled nofun
    · exact attached_then_ok_error_tabled h
  · cases h; exact grammarFault_tabled nofun

theorem aluChecks_error_tabled {a1 a2 a3 : Operand} {f : FaultRecord} (h : aluChecks a1 a2 a3 = .error f) :
    TabledFault f := by
  unfold aluChecks at h
  split at h
  case h_1 c hs => cases h; exact (sourceFault_tabled hs).2
  case h_2 =>
    split at h
    case h_1 c hd => cases h; exact destination_error_tabled hd
    case h_2 => exact aluGrammar_error_tabled h

theorem jumpChecks_error_tabled {a1 a2 a3 : Operand} {f : FaultRecord} (h : jumpChecks a1 a2 a3 = .error f) :
    TabledFault f := by
  unfold jumpChecks at h
  split at h
  case h_1 c hs => cases h; exact (sourceFault_tabled hs).1
  case h_2 => exact jumpGrammar_error_tabled h

/-- Every fault a decode answers is a pair of R130's table, and never code 0. -/
theorem decode_error_tabled {r : Record} {len : Len} {f : FaultRecord} (h : decode r len = .error f) :
    TabledFault f := by
  unfold decode decodeOperands at h
  split at h
  · cases h; exact ⟨rfl, nofun⟩
  · rcases bind_error_cases h with h | ⟨_, _, h⟩
    · exact aluChecks_error_tabled h
    · cases h
  · rcases bind_error_cases h with h | ⟨_, _, h⟩
    · exact jumpChecks_error_tabled h
    · cases h

/-! ### The index space (R27) -/

theorem Reg.idx_ofIdx : ∀ i : BitVec 4, (Reg.ofIdx i).idx = i := by decide

theorem Reg.bits_ofIdx : ∀ i : BitVec 4, (Reg.ofIdx i).bits = if i.toNat < 8 then 8 else 16 := by decide

theorem ByteReg.idx_toNat (b : ByteReg) : (Reg.byte b).idx.toNat = b.num.toNat := by cases b <;> rfl

theorem WordReg.idx_toNat (r : WordReg) : (Reg.word r).idx.toNat = 8 + r.num.toNat := by cases r <;> rfl

/-- Settles O11: naming and numbering are inverse to each other, and x[idx] is the named register's own read and write. -/
theorem indexSpaceNamesEveryRegister : Obligations.IndexSpaceNamesEveryRegister :=
  ⟨Reg.idx_ofIdx, Reg.ofIdx_idx, Reg.bits_ofIdx, ByteReg.idx_toNat, WordReg.idx_toNat, fun _ _ => rfl, fun _ _ => rfl,
    fun _ _ _ => rfl, fun _ _ _ => rfl⟩

namespace Machine

/-- What an instruction can do: one commit, or, if it is not admitted, the grammar fault at slot 2. -/
theorem exec_cases {i : Instr} {s t : State} (h : exec i s = .next t) :
    (∃ d fl ip, t = s.commit d fl ip) ∨ t = s.takeFault (grammarFault .operand2) := by
  rw [exec_eq] at h
  cases h
  split
  · exact .inl (committed_shape i s)
  · exact .inr rfl

/-! ### The bits of `flags` that hold no flag (R34) -/

/-- A commit leaves them, whether or not it writes flags. -/
theorem commit_reservedFlagsKept (s : State) (d : Option DestWrite) (fl : Option FlagBits) (ip : Word) :
    ReservedFlagsKept s (s.commit d fl ip) := by
  cases fl with
  | none => exact fun _ _ => rfl
  | some f => exact commit_reserved s d f ip

theorem exec_reservedFlagsKept {i : Instr} {s t : State} (h : exec i s = .next t) : ReservedFlagsKept s t := by
  rcases exec_cases h with ⟨d, fl, ip, rfl⟩ | rfl
  · exact commit_reservedFlagsKept s d fl ip
  · exact fun _ _ => rfl

/-- Every step without the `reset` input leaves them. -/
theorem step_reservedFlagsKept {s t : State} (h : step s = .next t) (hr : s.resetIn = false) :
    ReservedFlagsKept s t := by
  rcases step_cases h with ⟨hr', _⟩ | ⟨_, rfl, _⟩ | ⟨_, _, _, f, _, _, rfl⟩ | ⟨_, _, _, i, _, _, hexec⟩
  · rw [hr] at hr'; cases hr'
  · exact fun _ _ => rfl
  · exact fun _ _ => rfl
  · exact exec_reservedFlagsKept hexec

theorem reservedFlagsZero_of_flags_eq_zero {s : State} (h : s.flags = 0) : reservedFlagsZero s := fun n _ => by
  rw [h]; exact BitVec.getLsbD_zero

theorem reservedFlagsZero_of_kept {s t : State} (hs : reservedFlagsZero s) (h : ReservedFlagsKept s t) :
    reservedFlagsZero t := fun n hn => (h n hn).trans (hs n hn)

/-- Settles O26: a commit keeps the reserved bits, and reset clears the register. -/
theorem reservedFlagBitsAreNotWritten : Obligations.ReservedFlagBitsAreNotWritten := by
  refine ⟨reservedFlagsZero_of_flags_eq_zero rfl, fun s t h hr => step_reservedFlagsKept h hr, fun s t h hr => ?_⟩
  rcases step_cases h with ⟨_, rfl⟩ | ⟨hr', _⟩ | ⟨hr', _⟩ | ⟨hr', _⟩
  · exact reservedFlagsZero_of_flags_eq_zero s.applyReset_flags
  all_goals rw [hr] at hr'; cases hr'

/-! ### The invariant -/

/-- Reset gives a state that meets the invariant, if the front end's program is in its form. -/
theorem inv_applyReset {s : State} (h : Program.wf s.program = true) : Inv s.applyReset where
  reserved := reservedFlagsZero_of_flags_eq_zero s.applyReset_flags
  haltedIffFault := by simp [FaultRecord.cleared]
  legal := rfl
  observed := fun _ hd => nomatch hd
  program := h

theorem inv_takeFault {s : State} {f : FaultRecord} (h : Inv s) (hf : TabledFault f) : Inv (s.takeFault f) where
  reserved := h.reserved
  haltedIffFault := iff_of_true rfl hf.2
  legal := hf.1
  observed := h.observed
  program := h.program

/-- A commit observes the register it writes, so `post` is that register's new value (R104). -/
theorem commit_observed (s : State) (d : Option DestWrite) (fl : Option FlagBits) (ip : Word) (r : Reg)
    (h : (s.commit d fl ip).obs.dest = some r) : (s.commit d fl ip).obs.post = (s.commit d fl ip).rw (container r) := by
  cases d with
  | none => cases h
  | some w => cases h; rfl

theorem inv_commit {s : State} (h : Inv s) (d : Option DestWrite) (fl : Option FlagBits) (ip : Word) :
    Inv (s.commit d fl ip) where
  reserved := reservedFlagsZero_of_kept h.reserved (commit_reservedFlagsKept s d fl ip)
  haltedIffFault := h.haltedIffFault
  legal := h.legal
  observed := commit_observed s d fl ip
  program := h.program

theorem inv_exec {i : Instr} {s t : State} (h : Inv s) (hexec : exec i s = .next t) : Inv t := by
  rcases exec_cases hexec with ⟨d, fl, ip, rfl⟩ | rfl
  · exact inv_commit h d fl ip
  · exact inv_takeFault h (grammarFault_tabled nofun)

/-- Settles O56: reset, no step, a record's fault and an instruction each keep the invariant. -/
theorem stepKeepsInvariant : Obligations.StepKeepsInvariant := by
  intro s t hinv h
  rcases step_cases h with ⟨_, rfl⟩ | ⟨_, rfl, _⟩ | ⟨_, _, _, f, _, hdec, rfl⟩ | ⟨_, _, _, i, _, _, hexec⟩
  · exact inv_applyReset hinv.program
  · exact hinv
  · exact inv_takeFault hinv (decode_error_tabled hdec)
  · exact inv_exec hinv hexec

/-- Settles O55: State.reset is what the `reset` input makes of itself, and its program is empty. -/
theorem resetMeetsInvariant : Obligations.ResetMeetsInvariant := inv_applyReset (s := State.reset) rfl

/-! ### The buffer bytes of a register (R23, R25) -/

theorem lowOffset_val (r : WordReg) : (lowOffset r).val = 2 * r.num.toNat := by cases r <;> rfl

theorem highOffset_val (r : WordReg) : (highOffset r).val = 2 * r.num.toNat + 1 := by cases r <;> rfl

theorem byteOffset_val (b : ByteReg) :
    (byteOffset b).val = if b.num.toNat < 4 then 2 * b.num.toNat else 2 * (b.num.toNat - 4) + 1 := by
  cases b <;> rfl

/-- Settles O9: the offsets the model reads at are the ones R24 and R25 name. -/
theorem registerReadsOfBuffer : Obligations.RegisterReadsOfBuffer := by
  refine ⟨fun s r lo hi hlo hhi => ?_, fun s b k hk => ?_⟩
  · obtain rfl : lo = lowOffset r := Fin.ext (hlo.trans (lowOffset_val r).symm)
    obtain rfl : hi = highOffset r := Fin.ext (hhi.trans (highOffset_val r).symm)
    rfl
  · obtain rfl : k = byteOffset b := Fin.ext (hk.trans (byteOffset_val b).symm)
    rfl

theorem get_setRb (f : RegFile) (b : ByteReg) (v : Byte) (k : Fin 16) :
    (RegFile.setRb f b v).get k = if k = byteOffset b then v else f.get k :=
  get_set f (byteOffset b) k v

theorem get_setRw (f : RegFile) (r : WordReg) (v : Word) (k : Fin 16) : (RegFile.setRw f r v).get k =
    if k = lowOffset r then v.extractLsb' 0 8 else if k = highOffset r then v.extractLsb' 8 8 else f.get k := by
  rw [RegFile.setRw, get_set, get_set]
  by_cases hl : k = lowOffset r
  · rw [if_pos hl, if_pos hl, if_neg (hl ▸ lowOffset_ne_highOffset r r)]
  · rw [if_neg hl, if_neg hl]

/-- Settles O10: the two writes byte by byte, then what each register reads afterwards. -/
theorem writesChangeExactlyTheirBytes : Obligations.WritesChangeExactlyTheirBytes := by
  refine ⟨fun f r v k => ?_, fun f b v k => ?_, fun f b v => ?_, fun f b c v hcb => ?_, rw_setRb_parent,
    rw_setRb_ne, rw_setRw_self, rw_setRw_ne⟩
  · simp only [get_setRw, Fin.ext_iff, lowOffset_val, highOffset_val]
  · simp only [get_setRb, Fin.ext_iff, byteOffset_val]
  · rw [rb_setRb, if_pos rfl]
  · rw [rb_setRb, if_neg hcb]

/-! ### Reset (R40) -/

theorem reset_byte (k : Fin 16) : State.reset.regs.get k = 0 := by
  rw [Vector.get_eq_getElem]; exact Vector.getElem_replicate k.isLt

/-- Settles O1: a register read of the zero buffer is zero; the other fields are reset's literals. -/
theorem resetStateIsAllZero : Obligations.ResetStateIsAllZero := by
  refine ⟨reset_byte, fun r => ?_, fun b => reset_byte (byteOffset b), rfl, rfl, rfl, rfl, rfl⟩
  rw [State.rw, RegFile.rw, reset_byte, reset_byte]
  rfl

/-! ### The flags of a commit (R35) -/

theorem State.flagBits_addTo (s : State) (len : Len) (d : Reg) (v : Work) :
    (s.addTo len d v).flagBits = flagsAdd (s.read d) (truncTo d v) (s.read d + truncTo d v) :=
  s.flagBits_commit _ _ _

theorem State.flagBits_subFrom (s : State) (len : Len) (d : Reg) (v : Work) :
    (s.subFrom len d v).flagBits = flagsSub (s.read d) (truncTo d v) (s.read d - truncTo d v) :=
  s.flagBits_commit _ _ _

theorem State.flagBits_compare (s : State) (len : Len) (d : Reg) (v : Work) :
    (s.compare len d v).flagBits = flagsSub (s.read d) (truncTo d v) (s.read d - truncTo d v) :=
  s.flagBits_commit _ _ _

theorem width_eq_of_sameWidth {d r : Reg} (h : d.sameWidth r = true) : d.width = r.width :=
  (eq_of_beq h).symm

/-- An instruction that is no ADD, SUB or CMP leaves the whole flags register. -/
theorem committed_flags_of_arithDest_none {i : Instr} (s : State) (h : arithDest i = none) :
    (committed i s).flags = s.flags := by
  cases i with
  | movRR | movRI | jnz | jz | jp | jc | loopnz => rfl
  | addRR | addRI | subRR | subRI | cmpRR | cmpRI => cases h

/-- After an admitted ADD, SUB or CMP the six flags are the flag unit's for D0, S_W and D1. -/
theorem committed_flagBits {i : Instr} {d : Reg} (s : State) (hwf : i.wellFormed = true)
    (h : arithDest i = some d) : (committed i s).flagBits = unitFlags s d i := by
  cases i with
  | movRR | movRI | jnz | jz | jp | jc | loopnz => cases h
  | addRR _ _ r | subRR _ _ r | cmpRR _ _ r =>
    cases h
    have hsource := truncTo_sourceReg s (width_eq_of_sameWidth hwf)
    simp only [committed, State.flagBits_addTo, State.flagBits_subFrom, State.flagBits_compare, hsource]
    rfl
  | addRI _ _ v | subRI _ _ v | cmpRI _ _ v =>
    cases h
    simp only [committed, State.flagBits_addTo, State.flagBits_subFrom, State.flagBits_compare, truncTo_immValue]
    rfl

/-- Settles O25: an admitted instruction's one commit, and the flags it writes. -/
theorem onlyArithmeticWritesFlags : Obligations.OnlyArithmeticWritesFlags := fun i s hwf =>
  ⟨committed i s, exec_wellFormed i s hwf, committed_flags_of_arithDest_none s, fun _ h => committed_flagBits s hwf h⟩

/-! ### The `ip` of a commit (R88, R111) -/

theorem advanced_of_ip {len : Len} {s t : State} (h : t.ip = s.ipSeq len) : Advanced len s t := by
  rw [Advanced, h, ipSeq_toNat]

theorem jumpedBy_of_ip {len : Len} {rel : Byte} {s t : State}
    (h : t.ip = s.ipSeq len + (relValue rel).setWidth 16) : JumpedBy len rel s t := by
  rw [JumpedBy, h, relValue_setWidth, BitVec.toNat_add, ipSeq_toNat, BitVec.toNat_ofInt]
  omega

/-- A control instruction's target, not taken or taken (R111). -/
theorem jumpTo_advanced_or_jumpedBy {len : Len} {rel : Byte} {taken : Bool} {s t : State}
    (h : t.ip = s.jumpTo len (relValue rel) taken) : Advanced len s t ∨ JumpedBy len rel s t := by
  cases taken with
  | false => exact .inl (advanced_of_ip h)
  | true => exact .inr (jumpedBy_of_ip h)

/-- The instructions without a displacement commit `ip_seq`, the five with one commit a target of R111. -/
theorem committed_ip (i : Instr) (s : State) :
    Advanced i.len s (committed i s) ∨ ∃ rel, relOf i = some rel ∧ JumpedBy i.len rel s (committed i s) := by
  cases i with
  | movRR | movRI | addRR | addRI | subRR | subRI | cmpRR | cmpRI => exact .inl (advanced_of_ip rfl)
  | jnz len rel | jz len rel | jp len rel | jc len rel | loopnz len rel =>
    exact (jumpTo_advanced_or_jumpedBy rfl).imp id fun h => ⟨rel, rfl, h⟩

/-- Settles O38: an admitted instruction's one commit, and the `ip` it writes. -/
theorem instructionPointerHasTwoOutcomes : Obligations.InstructionPointerHasTwoOutcomes := fun i s hwf =>
  ⟨committed i s, exec_wellFormed i s hwf, committed_ip i s⟩

end Machine

end Sys2Proof
end

section
/-! SUPPORT. The family 30_encoding.md: the encoder and the decoder are inverse to each other up to the bits a descriptor's kind
does not name, the records that decode are R75's forms, and the written offset of a jump. -/

namespace Sys2Proof

open Sys2Proof.Machine Sys2Proof.Safety

/-! ### Operands and their descriptors (R66 to R73) -/

theorem Operand.ofBits_make (k : BitVec 3) (w es : Bool) (idx : BitVec 4) (hd : Bool) (v : Word) :
    Operand.ofBits (Descriptor.make k w es idx hd v) = operandOfKind k.toNat (Descriptor.make k w es idx hd v) := by
  rw [Operand.ofBits_eq]
  congr 2
  exact Descriptor.kind_make k w es idx hd v

@[simp] theorem setWidth_append_zeroByte (b : Byte) : (0#8 ++ b : Word).setWidth 8 = b :=
  low_of_append 0#8 b

@[simp] theorem Descriptor.payload_make_imm (k : BitVec 3) (es : Bool) (idx : BitVec 4) (hd : Bool) (i : Imm) :
    Descriptor.payload (Descriptor.make k i.width.bit es idx hd i.field) = i := by
  rw [Descriptor.payload, Descriptor.w_make, Descriptor.val_make]
  cases i with
  | imm8 b => exact congrArg Imm.imm8 (setWidth_append_zeroByte b)
  | imm16 v => rfl

/-- The descriptor written for an operand decodes to it. -/
@[simp] theorem Operand.ofBits_bits (a : Operand) : Operand.ofBits a.bits = a := by
  cases a with
  | empty | invalid => rfl
  | register w r => simp [Operand.bits, Operand.ofBits_make, operandOfKind]
  | memoryDirect a size => cases size <;> simp [Operand.bits, Operand.ofBits_make, operandOfKind]
  | effectiveAddress m size h =>
    have hmode : (0#1 ++ m : BitVec 4).extractLsb' 0 3 = m :=
      (extract_low 0#1 m 0 3 (by decide)).trans (extract_all m)
    cases size <;> simp [Operand.bits, Operand.ofBits_make, operandOfKind, hmode]
  | immediate i => simp [Operand.bits, Operand.ofBits_make, operandOfKind]
  | relativeJump b => simp [Operand.bits, Operand.ofBits_make, operandOfKind]
  | displacement i => simp [Operand.bits, Operand.ofBits_make, operandOfKind]

/-- Settles O51: the fields of a descriptor made from an operand are the operand's payload. -/
theorem operandRoundTrip : Obligations.OperandRoundTrip := Operand.ofBits_bits

/-! ### The checks that a record passes (R86, R93, R94) -/

/-- The operand an admitted source is written as (R75). -/
def AluSource.operand : AluSource → Operand
  | .reg r => r.operand
  | .imm i => .immediate i

/-- The width condition on an admitted source (R93 checks 4 and 5). -/
def AluSource.fits (d : Reg) : AluSource → Bool
  | .reg r => d.sameWidth r
  | .imm i => i.fits d

/-- MOV, ADD, SUB and CMP pass their checks with exactly the operands of an admitted form (R93). -/
theorem aluChecks_eq_ok_iff {a1 a2 a3 : Operand} {d : Reg} {src : AluSource} :
    aluChecks a1 a2 a3 = .ok (d, src) ↔
      a1 = d.operand ∧ a2 = src.operand ∧ a3 = .empty ∧ src.fits d = true := by
  constructor
  · intro h
    obtain ⟨h1, h3, ⟨r, rfl, h2, hw⟩ | ⟨i, rfl, h2, hw⟩⟩ := aluChecks_ok h
    · exact ⟨h1, h2, h3, (sourceWidthOk_eq d r).symm.trans hw⟩
    · exact ⟨h1, h2, h3, hw⟩
  · rintro ⟨rfl, rfl, rfl, hw⟩
    have hresolved : aluChecks d.operand src.operand .empty = aluGrammar d.operand src.operand .empty := by
      cases src <;> rfl
    rw [hresolved]
    cases src with
    | reg r =>
      have hw : sourceWidthOk d r = true := (sourceWidthOk_eq d r).trans hw
      simp [aluGrammar, AluSource.operand, Reg.operand, checkDestination, checkAttached, hw, bind, Except.bind]
    | imm i =>
      have hw : immWidthOk d i = true := hw
      simp [aluGrammar, AluSource.operand, Reg.operand, checkDestination, checkAttached, hw, bind, Except.bind]

/-- A jump passes its checks with exactly the operands of an admitted form (R94). -/
theorem jumpChecks_eq_ok_iff {a1 a2 a3 : Operand} {rel : Byte} :
    jumpChecks a1 a2 a3 = .ok rel ↔ a1 = .relativeJump rel ∧ a2 = .empty ∧ a3 = .empty := by
  refine ⟨jumpChecks_ok, ?_⟩
  rintro ⟨rfl, rfl, rfl⟩
  rfl

/-- A bind that answers a value has it from the value of its first computation. -/
theorem bind_eq_ok_iff {ε α β : Type} {x : Except ε α} {k : α → Except ε β} {b : β} :
    x >>= k = .ok b ↔ ∃ a, x = .ok a ∧ k a = .ok b := by
  cases x with
  | error e => exact ⟨nofun, fun ⟨_, h, _⟩ => nomatch h⟩
  | ok a => exact ⟨fun h => ⟨a, rfl, h⟩, fun ⟨_, rfl, h⟩ => h⟩

/-! ### The records that decode (R75) -/

/-- The record of an admitted MOV, ADD, SUB or CMP, in the terms of its decoded fields. -/
structure IsAluForm (r : Record) (o : AluOp) (d : Reg) (src : AluSource) : Prop where
  op : Record.op r = (Opcode.alu o).tag
  a1 : Operand.ofBits (Record.a1 r) = d.operand
  a2 : Operand.ofBits (Record.a2 r) = src.operand
  a3 : Operand.ofBits (Record.a3 r) = .empty
  fits : src.fits d = true

/-- The record of an admitted jump or LOOPNZ, in the terms of its decoded fields. -/
structure IsJumpForm (r : Record) (j : JumpOp) (rel : Byte) : Prop where
  op : Record.op r = (Opcode.jump j).tag
  a1 : Operand.ofBits (Record.a1 r) = .relativeJump rel
  a2 : Operand.ofBits (Record.a2 r) = .empty
  a3 : Operand.ofBits (Record.a3 r) = .empty

theorem decode_of_alu_tag {r : Record} {o : AluOp} (h : Record.op r = (Opcode.alu o).tag) (len : Len) :
    decode r len = aluChecks (Operand.ofBits (Record.a1 r)) (Operand.ofBits (Record.a2 r))
      (Operand.ofBits (Record.a3 r)) >>= fun p => .ok (o.instr len p.1 p.2) := by
  rw [decode, h, decodeOperands, Opcode.ofTag_tag]

theorem decode_of_jump_tag {r : Record} {j : JumpOp} (h : Record.op r = (Opcode.jump j).tag) (len : Len) :
    decode r len = jumpChecks (Operand.ofBits (Record.a1 r)) (Operand.ofBits (Record.a2 r))
      (Operand.ofBits (Record.a3 r)) >>= fun rel => .ok (j.instr len rel) := by
  rw [decode, h, decodeOperands, Opcode.ofTag_tag]

theorem decode_of_reserved_tag {r : Record} (h : Opcode.ofTag (Record.op r) = none) (len : Len) :
    decode r len = .error ⟨.unsupportedOpcode, .opcode⟩ := by
  rw [decode, decodeOperands, h]

theorem decode_aluForm {r : Record} {o : AluOp} {d : Reg} {src : AluSource} (h : IsAluForm r o d src) (len : Len) :
    decode r len = .ok (o.instr len d src) := by
  rw [decode_of_alu_tag h.op, aluChecks_eq_ok_iff.2 ⟨h.a1, h.a2, h.a3, h.fits⟩]
  rfl

theorem decode_jumpForm {r : Record} {j : JumpOp} {rel : Byte} (h : IsJumpForm r j rel) (len : Len) :
    decode r len = .ok (j.instr len rel) := by
  rw [decode_of_jump_tag h.op, jumpChecks_eq_ok_iff.2 ⟨h.a1, h.a2, h.a3⟩]
  rfl

/-- A record that decodes has one of the admitted forms, and its instruction is that form's. -/
theorem decode_ok_cases {r : Record} {len : Len} {i : Instr} (h : decode r len = .ok i) :
    (∃ o d src, IsAluForm r o d src ∧ i = o.instr len d src) ∨ ∃ j rel, IsJumpForm r j rel ∧ i = j.instr len rel := by
  rcases htag : Opcode.ofTag (Record.op r) with _ | o | j
  · rw [decode_of_reserved_tag htag] at h
    cases h
  · have hop := (Opcode.tag_of_ofTag htag).symm
    rw [decode_of_alu_tag hop] at h
    obtain ⟨⟨d, src⟩, hc, hi⟩ := bind_eq_ok_iff.1 h
    obtain ⟨h1, h2, h3, hw⟩ := aluChecks_eq_ok_iff.1 hc
    cases hi
    exact .inl ⟨o, d, src, ⟨hop, h1, h2, h3, hw⟩, rfl⟩
  · have hop := (Opcode.tag_of_ofTag htag).symm
    rw [decode_of_jump_tag hop] at h
    obtain ⟨rel, hc, hi⟩ := bind_eq_ok_iff.1 h
    obtain ⟨h1, h2, h3⟩ := jumpChecks_eq_ok_iff.1 hc
    cases hi
    exact .inr ⟨j, rel, ⟨hop, h1, h2, h3⟩, rfl⟩

/-! ### Every instruction is the instruction of an admitted opcode and its operands -/

section
variable (o : AluOp) (j : JumpOp) (len : Len) (d : Reg) (src : AluSource) (rel : Byte)

@[simp] theorem AluOp.len_instr : (o.instr len d src).len = len := by cases o <;> cases src <;> rfl
@[simp] theorem AluOp.wellFormed_instr : (o.instr len d src).wellFormed = src.fits d := by cases o <;> cases src <;> rfl
@[simp] theorem JumpOp.len_instr : (j.instr len rel).len = len := by cases j <;> rfl
@[simp] theorem JumpOp.wellFormed_instr : (j.instr len rel).wellFormed = true := by cases j <;> rfl

theorem encode_aluInstr :
    encode (o.instr len d src) = Record.make (Opcode.alu o).tag d.operand src.operand .empty := by
  cases o <;> cases src <;> rfl

theorem encode_jumpInstr :
    encode (j.instr len rel) = Record.make (Opcode.jump j).tag (.relativeJump rel) .empty .empty := by
  cases j <;> rfl

end

theorem Instr.eq_instr (i : Instr) :
    (∃ (o : AluOp) (d : Reg) (src : AluSource), i = o.instr i.len d src) ∨
      ∃ (j : JumpOp) (rel : Byte), i = j.instr i.len rel := by
  cases i with
  | movRR _ d r => exact .inl ⟨.mov, d, .reg r, rfl⟩
  | movRI _ d v => exact .inl ⟨.mov, d, .imm v, rfl⟩
  | addRR _ d r => exact .inl ⟨.add, d, .reg r, rfl⟩
  | addRI _ d v => exact .inl ⟨.add, d, .imm v, rfl⟩
  | subRR _ d r => exact .inl ⟨.sub, d, .reg r, rfl⟩
  | subRI _ d v => exact .inl ⟨.sub, d, .imm v, rfl⟩
  | cmpRR _ d r => exact .inl ⟨.cmp, d, .reg r, rfl⟩
  | cmpRI _ d v => exact .inl ⟨.cmp, d, .imm v, rfl⟩
  | jnz _ rel => exact .inr ⟨.jnz, rel, rfl⟩
  | jz _ rel => exact .inr ⟨.jz, rel, rfl⟩
  | jp _ rel => exact .inr ⟨.jp, rel, rfl⟩
  | jc _ rel => exact .inr ⟨.jc, rel, rfl⟩
  | loopnz _ rel => exact .inr ⟨.loopnz, rel, rfl⟩

/-! ### Decoding an encoded instruction -/

theorem isAluForm_make {o : AluOp} {d : Reg} {src : AluSource} (h : src.fits d = true) :
    IsAluForm (Record.make (Opcode.alu o).tag d.operand src.operand .empty) o d src where
  op := Record.op_make ..
  a1 := by rw [Record.a1_make, Operand.ofBits_bits]
  a2 := by rw [Record.a2_make, Operand.ofBits_bits]
  a3 := by rw [Record.a3_make, Operand.ofBits_bits]
  fits := h

theorem isJumpForm_make (j : JumpOp) (rel : Byte) :
    IsJumpForm (Record.make (Opcode.jump j).tag (.relativeJump rel) .empty .empty) j rel where
  op := Record.op_make ..
  a1 := by rw [Record.a1_make, Operand.ofBits_bits]
  a2 := by rw [Record.a2_make, Operand.ofBits_bits]
  a3 := by rw [Record.a3_make, Operand.ofBits_bits]

/-- Settles O52: the record of an admitted form passes the checks with the operands it was made from. -/
theorem decodeOfEncode : Obligations.DecodeOfEncode := by
  intro i hwf
  rcases i.eq_instr with ⟨o, d, src, hi⟩ | ⟨j, rel, hi⟩
  · rw [hi, AluOp.wellFormed_instr] at hwf
    rw [hi, encode_aluInstr, AluOp.len_instr]
    exact decode_aluForm (isAluForm_make hwf) i.len
  · rw [hi, encode_jumpInstr, JumpOp.len_instr]
    exact decode_jumpForm (isJumpForm_make j rel) i.len

/-! ### The bits a descriptor's kind names (R73) -/

/-- An operand with the payload no rule reads (R68, R69) written as 0. -/
def Operand.heeded : Operand → Operand
  | .memoryDirect _ _ => .memoryDirect 0 none
  | .effectiveAddress _ _ _ => .effectiveAddress 0 none false
  | .displacement _ => .displacement (.imm8 0)
  | .empty => .empty
  | .register w r => .register w r
  | .immediate i => .immediate i
  | .relativeJump b => .relativeJump b
  | .invalid => .invalid

/-- Masking a descriptor with a descriptor masks its fields. -/
theorem and_make (x : BitVec 32) (k : BitVec 3) (w es : Bool) (idx : BitVec 4) (hd : Bool) (v : Word) :
    x &&& Descriptor.make k w es idx hd v =
      Descriptor.make (Descriptor.kind x &&& k) (x.getLsbD 3 && w) (x.getLsbD 4 && es) (Descriptor.idx x &&& idx)
        (Descriptor.hd x && hd) (Descriptor.val x &&& v) := by
  apply BitVec.eq_of_getLsbD_eq
  intro i hi
  rw [BitVec.getLsbD_and, Descriptor.getLsbD_make, Descriptor.getLsbD_make]
  split_ifs with h1 h2 h3 h4 h5 h6
  · simp [Descriptor.kind, h1]
  · rw [h2]
  · rw [h3]
  · simp [Descriptor.idx, show i - 5 < 4 by omega, show 5 + (i - 5) = i by omega]
  · rw [h5]; rfl
  · exact Bool.and_false _
  · simp [Descriptor.val, show i - 16 < 16 by omega, show 16 + (i - 16) = i by omega]

theorem and_lowByteMask (v : Word) : v &&& 0x00FF = 0#8 ++ v.setWidth 8 := by
  conv_lhs =>
    rw [← word_halves v, show (0x00FF : Word) = 0#8 ++ BitVec.allOnes 8 from rfl, BitVec.and_append, BitVec.and_zero,
      BitVec.and_allOnes]
  rfl

@[simp] theorem Descriptor.bit_w (x : BitVec 32) : (Descriptor.w x).bit = x.getLsbD 3 := by
  rw [Descriptor.w]
  cases x.getLsbD 3 <;> rfl

@[simp] theorem Descriptor.width_payload (x : BitVec 32) : (Descriptor.payload x).width = Descriptor.w x := by
  rw [Descriptor.payload]
  cases Descriptor.w x <;> rfl

/-- A payload is held in the low bits of its width, the rest 0 (R69, R70). -/
theorem Descriptor.field_payload (x : BitVec 32) :
    (Descriptor.payload x).field = Descriptor.val x &&& (if x.getLsbD 3 then BitVec.allOnes 16 else 0x00FF) := by
  rw [Descriptor.payload, Descriptor.w]
  cases x.getLsbD 3 with
  | false => exact (and_lowByteMask _).symm
  | true => exact BitVec.and_allOnes.symm

theorem heeded_register {x : BitVec 32} (h : Descriptor.kind x = 1) :
    heeded x = Descriptor.make 1 (x.getLsbD 3) false (Descriptor.idx x) false 0 := by
  have hmask : heededBits x = Descriptor.make 7 true false (BitVec.allOnes 4) false 0 := if_pos h
  rw [heeded, hmask, and_make, h, BitVec.and_allOnes]
  simp

theorem heeded_immediate {x : BitVec 32} (h : Descriptor.kind x = 4) :
    heeded x = Descriptor.make 4 (x.getLsbD 3) false 0 false (Descriptor.payload x).field := by
  have hbits : heededBits x = if x.getLsbD 3 then 0xFFFF000F else 0x00FF000F :=
    (if_neg (show ¬Descriptor.kind x = 1 by rw [h]; decide)).trans (if_pos h)
  have hmask : heededBits x =
      Descriptor.make 7 true false 0 false (if x.getLsbD 3 then BitVec.allOnes 16 else 0x00FF) := by
    rw [hbits]
    cases x.getLsbD 3 <;> rfl
  rw [heeded, hmask, and_make, h, ← Descriptor.field_payload]
  simp

theorem heeded_relativeJump {x : BitVec 32} (h : Descriptor.kind x = 5) :
    heeded x = Descriptor.make 5 false false 0 false (0#8 ++ (Descriptor.val x).setWidth 8) := by
  have hmask : heededBits x = Descriptor.make 7 false false 0 false 0x00FF :=
    (if_neg (show ¬Descriptor.kind x = 1 by rw [h]; decide)).trans <|
      (if_neg (show ¬Descriptor.kind x = 4 by rw [h]; decide)).trans (if_pos h)
  rw [heeded, hmask, and_make, h, and_lowByteMask]
  simp

/-- Of every other kind the tag alone is heeded (R68, R69, R72). -/
theorem heeded_tag {x : BitVec 32} {k : BitVec 3} (h : Descriptor.kind x = k) (hk : k ≠ 1 ∧ k ≠ 4 ∧ k ≠ 5) :
    heeded x = Descriptor.make k false false 0 false 0 := by
  have hmask : heededBits x = Descriptor.make 7 false false 0 false 0 :=
    (if_neg (show ¬Descriptor.kind x = 1 from h ▸ hk.1)).trans <|
      (if_neg (show ¬Descriptor.kind x = 4 from h ▸ hk.2.1)).trans (if_neg (show ¬Descriptor.kind x = 5 from h ▸ hk.2.2))
  rw [heeded, hmask, and_make, h, show (7 : BitVec 3) = BitVec.allOnes 3 from rfl, BitVec.and_allOnes]
  simp

/-- Clearing a descriptor's ignored bits gives the descriptor written for its operand, its unread payload 0. -/
theorem heeded_eq_bits (x : BitVec 32) : heeded x = (Operand.ofBits x).heeded.bits := by
  have hkind : ∀ k : BitVec 3, k = 0 ∨ k = 1 ∨ k = 2 ∨ k = 3 ∨ k = 4 ∨ k = 5 ∨ k = 6 ∨ k = 7 := by decide
  have hop : ∀ {k}, Descriptor.kind x = k → Operand.ofBits x = operandOfKind k.toNat x := fun h =>
    h ▸ Operand.ofBits_eq x
  rcases hkind (Descriptor.kind x) with h | h | h | h | h | h | h | h
  · rw [heeded_tag h (by decide), hop h]; rfl
  · rw [heeded_register h, hop h]
    simp [operandOfKind, Operand.heeded, Operand.bits, Reg.idx_ofIdx]
  · rw [heeded_tag h (by decide), hop h]; rfl
  · rw [heeded_tag h (by decide), hop h]; rfl
  · rw [heeded_immediate h, hop h]
    simp [operandOfKind, Operand.heeded, Operand.bits]
  · rw [heeded_relativeJump h, hop h]; rfl
  · rw [heeded_tag h (by decide), hop h]; rfl
  · rw [heeded_tag h (by decide), hop h]; rfl

/-- A record with its ignored bits cleared is the record made from its own opcode tag and operands. -/
theorem heededRecord_eq_make (r : Record) :
    heededRecord r = Record.make (Record.op r) (Operand.ofBits (Record.a1 r)).heeded
      (Operand.ofBits (Record.a2 r)).heeded (Operand.ofBits (Record.a3 r)).heeded := by
  rw [Record.make, ← heeded_eq_bits, ← heeded_eq_bits, ← heeded_eq_bits]
  rfl

@[simp] theorem AluSource.heeded_operand (src : AluSource) : src.operand.heeded = src.operand := by
  cases src <;> rfl

/-- Settles O53: a record that decodes has operands without an unread payload, so clearing its ignored bits gives the record
made from them. -/
theorem encodeOfDecode : Obligations.EncodeOfDecode := by
  intro r len i h
  rw [heededRecord_eq_make]
  rcases decode_ok_cases h with ⟨o, d, src, hf, rfl⟩ | ⟨j, rel, hf, rfl⟩
  · rw [encode_aluInstr, hf.op, hf.a1, hf.a2, hf.a3, AluSource.heeded_operand]
    exact ⟨(o.wellFormed_instr len d src).trans hf.fits, o.len_instr len d src, rfl⟩
  · rw [encode_jumpInstr, hf.op, hf.a1, hf.a2, hf.a3]
    exact ⟨j.wellFormed_instr len rel, j.len_instr len rel, rfl⟩

/-! ### The checks read no ignored bit (R73) -/

@[simp] theorem Operand.sourceFault_heeded (a : Operand) : a.heeded.sourceFault = a.sourceFault := by cases a <;> rfl

@[simp] theorem Operand.destination_heeded (a : Operand) : a.heeded.destination = a.destination := by cases a <;> rfl

@[simp] theorem Operand.heeded_eq_empty_iff (a : Operand) : a.heeded = .empty ↔ a = .empty := by
  cases a <;> simp [Operand.heeded]

@[simp] theorem checkDestination_heeded (a : Operand) : checkDestination a.heeded = checkDestination a := by
  cases a <;> rfl

@[simp] theorem checkAttached_heeded (a : Operand) : checkAttached a.heeded = checkAttached a := by
  simp [checkAttached]

@[simp] theorem aluGrammar_heeded (a1 a2 a3 : Operand) :
    aluGrammar a1.heeded a2.heeded a3.heeded = aluGrammar a1 a2 a3 := by
  cases a2 with
  | register w r =>
    change aluGrammar a1.heeded (.register w r) a3.heeded = _
    simp only [aluGrammar, checkDestination_heeded, checkAttached_heeded]
  | immediate i =>
    change aluGrammar a1.heeded (.immediate i) a3.heeded = _
    simp only [aluGrammar, checkDestination_heeded, checkAttached_heeded]
  | empty | memoryDirect | effectiveAddress | relativeJump | displacement | invalid => rfl

@[simp] theorem jumpGrammar_heeded (a1 a2 a3 : Operand) :
    jumpGrammar a1.heeded a2.heeded a3.heeded = jumpGrammar a1 a2 a3 := by
  cases a1 with
  | relativeJump rel =>
    change jumpGrammar (.relativeJump rel) a2.heeded a3.heeded = _
    simp only [jumpGrammar, ne_eq, Operand.heeded_eq_empty_iff, checkAttached_heeded]
  | empty | register | memoryDirect | effectiveAddress | immediate | displacement | invalid => rfl

theorem decodeOperands_heeded (op : BitVec 4) (a1 a2 a3 : Operand) (len : Len) :
    decodeOperands op a1.heeded a2.heeded a3.heeded len = decodeOperands op a1 a2 a3 len := by
  simp only [decodeOperands, aluChecks, jumpChecks, Operand.sourceFault_heeded, Operand.destination_heeded,
    aluGrammar_heeded, jumpGrammar_heeded]

/-- Clearing a record's ignored bits changes neither the instruction nor the fault it decodes to. -/
theorem decode_heededRecord (r : Record) (len : Len) : decode (heededRecord r) len = decode r len := by
  rw [heededRecord_eq_make, decode, Record.op_make, Record.a1_make, Record.a2_make, Record.a3_make, Operand.ofBits_bits,
    Operand.ofBits_bits, Operand.ofBits_bits, decodeOperands_heeded, decode]

/-- Settles O50: a transfer reads its record through `decode` alone. -/
theorem unnamedBitsAreIgnored : Obligations.UnnamedBitsAreIgnored := by
  intro r q len s h
  have hdecode : decode r len = decode q len := by rw [← decode_heededRecord r, h, decode_heededRecord]
  rw [transfer, transfer, hdecode]

/-! ### The admitted forms on raw bits (R75) -/

theorem operandOfKind_eq_empty_iff {k : Nat} {x : BitVec 32} : operandOfKind k x = .empty ↔ k = 0 := by
  unfold operandOfKind
  split <;> simp_all

theorem operandOfKind_eq_register_iff {k : Nat} {x : BitVec 32} {w : Width} {g : Reg} :
    operandOfKind k x = .register w g ↔ k = 1 ∧ Descriptor.w x = w ∧ Reg.ofIdx (Descriptor.idx x) = g := by
  unfold operandOfKind
  split <;> simp_all

theorem operandOfKind_eq_immediate_iff {k : Nat} {x : BitVec 32} {i : Imm} :
    operandOfKind k x = .immediate i ↔ k = 4 ∧ Descriptor.payload x = i := by
  unfold operandOfKind
  split <;> simp_all

theorem operandOfKind_eq_relativeJump_iff {k : Nat} {x : BitVec 32} {b : Byte} :
    operandOfKind k x = .relativeJump b ↔ k = 5 ∧ (Descriptor.val x).setWidth 8 = b := by
  unfold operandOfKind
  split <;> simp_all

/-- The width of the register a descriptor names: bit 3 of its index (R66, R67). -/
theorem Descriptor.width_ofIdx_idx (x : BitVec 32) :
    (Reg.ofIdx (Descriptor.idx x)).width = if x.getLsbD 8 then .word else .byte := by
  have hbit : (Descriptor.idx x).getLsbD 3 = x.getLsbD 8 := by simp [Descriptor.idx]
  rw [Reg.ofIdx, hbit]
  cases x.getLsbD 8 <;> rfl

theorem widthOfBit_inj (a b : Bool) :
    ((if a then Width.word else .byte) = if b then Width.word else .byte) ↔ a = b := by
  cases a <;> cases b <;> decide

/-- A descriptor of a register whose declared width agrees with its index (R67). -/
theorem operandOfKind_eq_operand_iff {k : Nat} {x : BitVec 32} {g : Reg} : operandOfKind k x = g.operand ↔
    k = 1 ∧ x.getLsbD 3 = x.getLsbD 8 ∧ Reg.ofIdx (Descriptor.idx x) = g := by
  rw [Reg.operand, operandOfKind_eq_register_iff]
  refine and_congr_right fun _ => and_congr_left ?_
  rintro rfl
  rw [Descriptor.w, Descriptor.width_ofIdx_idx, widthOfBit_inj]

theorem bit3_a1 (r : Record) : (Record.a1 r).getLsbD 3 = w1 r := by simp [Record.a1, w1]
theorem bit8_a1 (r : Record) : (Record.a1 r).getLsbD 8 = wide1 r := by simp [Record.a1, wide1]
theorem bit3_a2 (r : Record) : (Record.a2 r).getLsbD 3 = w2 r := by simp [Record.a2, w2]
theorem bit8_a2 (r : Record) : (Record.a2 r).getLsbD 8 = wide2 r := by simp [Record.a2, wide2]

theorem a1_eq_register_iff {r : Record} {g : Reg} : Operand.ofBits (Record.a1 r) = g.operand ↔
    kind1 r = 1 ∧ w1 r = wide1 r ∧ Reg.ofIdx (Descriptor.idx (Record.a1 r)) = g := by
  rw [ofBits_a1, operandOfKind_eq_operand_iff, bit3_a1, bit8_a1]

theorem a2_eq_register_iff {r : Record} {g : Reg} : Operand.ofBits (Record.a2 r) = g.operand ↔
    kind2 r = 1 ∧ w2 r = wide2 r ∧ Reg.ofIdx (Descriptor.idx (Record.a2 r)) = g := by
  rw [ofBits_a2, operandOfKind_eq_operand_iff, bit3_a2, bit8_a2]

/-- The register named by operand 2 has the width of the one named by operand 1 (R93 check 4). -/
theorem sameWidth_iff_wide (r : Record) :
    (Reg.ofIdx (Descriptor.idx (Record.a1 r))).sameWidth (Reg.ofIdx (Descriptor.idx (Record.a2 r))) = true ↔
      wide2 r = wide1 r := by
  rw [Reg.sameWidth, beq_iff_eq, Descriptor.width_ofIdx_idx, Descriptor.width_ofIdx_idx, widthOfBit_inj, bit8_a1,
    bit8_a2]

/-- The payload of operand 2 is no wider than the register named by operand 1 (R93 check 5). -/
theorem fits_iff_wide (r : Record) :
    (Descriptor.payload (Record.a2 r)).fits (Reg.ofIdx (Descriptor.idx (Record.a1 r))) = true ↔
      (w2 r = true → wide1 r = true) := by
  rw [Imm.fits, decide_eq_true_iff, Reg.bits, Descriptor.width_payload, Descriptor.w, Descriptor.width_ofIdx_idx, bit3_a2,
    bit8_a1]
  cases w2 r <;> cases wide1 r <;> decide

/-- Tags 0 to 3 are the tags of MOV, ADD, SUB and CMP (R74). -/
theorem opBits_alu_iff (r : Record) : opBits r ≤ 3 ↔ ∃ o, Record.op r = (Opcode.alu o).tag := by
  constructor
  · intro h
    rcases opBits_cases r with ⟨_, o, ho⟩ | ⟨h4, _⟩ | ⟨h9, _⟩
    · exact ⟨o, (Opcode.tag_of_ofTag ho).symm⟩
    all_goals omega
  · rintro ⟨o, ho⟩
    have hop : opBits r = (Opcode.alu o).tag.toNat := congrArg BitVec.toNat ho
    rw [hop]
    cases o <;> decide

/-- Tags 4 to 8 are the tags of the jumps and LOOPNZ (R74). -/
theorem opBits_jump_iff (r : Record) : 4 ≤ opBits r ∧ opBits r ≤ 8 ↔ ∃ j, Record.op r = (Opcode.jump j).tag := by
  constructor
  · rintro ⟨h4, h8⟩
    rcases opBits_cases r with ⟨h3, _⟩ | ⟨_, _, j, hj⟩ | ⟨h9, _⟩
    · omega
    · exact ⟨j, (Opcode.tag_of_ofTag hj).symm⟩
    · omega
  · rintro ⟨j, hj⟩
    have hop : opBits r = (Opcode.jump j).tag.toNat := congrArg BitVec.toNat hj
    rw [hop]
    cases j <;> decide

theorem admittedAlu_iff (r : Record) : admittedAlu r ↔ ∃ o d src, IsAluForm r o d src := by
  constructor
  · rintro ⟨hop, hk1, hw1, hk3, hsrc⟩
    obtain ⟨o, ho⟩ := (opBits_alu_iff r).1 hop
    have h1 := a1_eq_register_iff.2 ⟨hk1, hw1, rfl⟩
    have h3 := (ofBits_a3 r).trans (operandOfKind_eq_empty_iff.2 hk3)
    rcases hsrc with ⟨hk2, hw2, hwide⟩ | ⟨hk2, hwide⟩
    · have h2 := a2_eq_register_iff.2 ⟨hk2, hw2, rfl⟩
      exact ⟨o, _, .reg _, ho, h1, h2, h3, (sameWidth_iff_wide r).2 hwide⟩
    · have h2 := (ofBits_a2 r).trans (operandOfKind_eq_immediate_iff.2 ⟨hk2, rfl⟩)
      exact ⟨o, _, .imm _, ho, h1, h2, h3, (fits_iff_wide r).2 hwide⟩
  · rintro ⟨o, d, src, ho, h1, h2, h3, hfits⟩
    obtain ⟨hk1, hw1, rfl⟩ := a1_eq_register_iff.1 h1
    refine ⟨(opBits_alu_iff r).2 ⟨o, ho⟩, hk1, hw1, operandOfKind_eq_empty_iff.1 ((ofBits_a3 r).symm.trans h3), ?_⟩
    cases src with
    | reg g =>
      obtain ⟨hk2, hw2, rfl⟩ := a2_eq_register_iff.1 h2
      exact .inl ⟨hk2, hw2, (sameWidth_iff_wide r).1 hfits⟩
    | imm i =>
      obtain ⟨hk2, rfl⟩ := operandOfKind_eq_immediate_iff.1 ((ofBits_a2 r).symm.trans h2)
      exact .inr ⟨hk2, (fits_iff_wide r).1 hfits⟩

theorem admittedJump_iff (r : Record) : admittedJump r ↔ ∃ j rel, IsJumpForm r j rel := by
  constructor
  · rintro ⟨h4, h8, hk1, hk2, hk3⟩
    obtain ⟨j, hj⟩ := (opBits_jump_iff r).1 ⟨h4, h8⟩
    exact ⟨j, _, hj, (ofBits_a1 r).trans (operandOfKind_eq_relativeJump_iff.2 ⟨hk1, rfl⟩),
      (ofBits_a2 r).trans (operandOfKind_eq_empty_iff.2 hk2), (ofBits_a3 r).trans (operandOfKind_eq_empty_iff.2 hk3)⟩
  · rintro ⟨j, rel, hj, h1, h2, h3⟩
    obtain ⟨h4, h8⟩ := (opBits_jump_iff r).2 ⟨j, hj⟩
    obtain ⟨hk1, _⟩ := operandOfKind_eq_relativeJump_iff.1 ((ofBits_a1 r).symm.trans h1)
    exact ⟨h4, h8, hk1, operandOfKind_eq_empty_iff.1 ((ofBits_a2 r).symm.trans h2),
      operandOfKind_eq_empty_iff.1 ((ofBits_a3 r).symm.trans h3)⟩

theorem decode_ok_iff_admitted (r : Record) (len : Len) :
    (∃ i, decode r len = .ok i) ↔ admittedAlu r ∨ admittedJump r := by
  rw [admittedAlu_iff, admittedJump_iff]
  constructor
  · rintro ⟨i, h⟩
    rcases decode_ok_cases h with ⟨o, d, src, hf, _⟩ | ⟨j, rel, hf, _⟩
    · exact .inl ⟨o, d, src, hf⟩
    · exact .inr ⟨j, rel, hf⟩
  · rintro (⟨o, d, src, hf⟩ | ⟨j, rel, hf⟩)
    · exact ⟨_, decode_aluForm hf len⟩
    · exact ⟨_, decode_jumpForm hf len⟩

theorem exists_error_iff_not_ok {ε α : Type} (x : Except ε α) : (∃ e, x = .error e) ↔ ¬∃ a, x = .ok a := by
  cases x <;> simp

/-- Settles O49: R75's raw bits are those of the two decoded forms, and a record without an instruction faults. -/
theorem decodeAcceptsAdmittedFormsOnly : Obligations.DecodeAcceptsAdmittedFormsOnly := fun r len =>
  ⟨decode_ok_iff_admitted r len, (exists_error_iff_not_ok _).trans (not_congr (decode_ok_iff_admitted r len))⟩

/-- Settles O48: each of the seven records is evaluated. -/
theorem specRecordsDecode : Obligations.SpecRecordsDecode := by
  unfold Obligations.SpecRecordsDecode
  decide

/-! ### The written offset of a jump (R81) -/

namespace Machine

/-- With length 2, R111's target is the jump's own address plus the written offset. -/
theorem atWrittenOffset_of_jumpedBy {rel : Byte} {s t : State} (h : JumpedBy 2 rel s t) : AtWrittenOffset rel s t := by
  have htwo : ((2 : Len).toNat : Int) = 2 := rfl
  rw [AtWrittenOffset, writtenOffset, h, htwo, add_assoc, add_comm 2]

/-- A well-formed instruction that commits a taken target at length 2 completes at the written offset. -/
theorem exec_atWrittenOffset {i : Instr} {rel : Byte} {s : State} {taken : Bool} (hwf : i.wellFormed = true)
    (hip : (committed i s).ip = s.jumpTo 2 (relValue rel) taken) (htaken : taken = true) :
    ∃ t, exec i s = .next t ∧ AtWrittenOffset rel s t := by
  subst htaken
  exact ⟨_, exec_wellFormed i s hwf, atWrittenOffset_of_jumpedBy (jumpedBy_of_ip hip)⟩

/-- LOOPNZ's condition, from the counter before the step (R116). -/
theorem loopnz_taken {cx : Word} {zf : Bool} (hcx : cx ≠ 1) (hzf : zf = false) : (cx - 1 != 0 && !zf) = true := by
  have hne : cx - 1 ≠ 0 := fun h => hcx (by bv_omega)
  rw [hzf, Bool.not_false, Bool.and_true, bne_iff_ne]
  exact hne

/-- Settles O39: each of the five commits its taken target. -/
theorem writtenOffsetNamesTheTarget : Obligations.WrittenOffsetNamesTheTarget := fun rel s =>
  ⟨fun h => exec_atWrittenOffset (i := .jnz 2 rel) rfl rfl (by rw [h]; rfl),
    fun h => exec_atWrittenOffset (i := .jz 2 rel) rfl rfl h,
    fun h => exec_atWrittenOffset (i := .jp 2 rel) rfl rfl h,
    fun h => exec_atWrittenOffset (i := .jc 2 rel) rfl rfl h,
    fun hcx hzf => exec_atWrittenOffset (i := .loopnz 2 rel) rfl rfl (loopnz_taken hcx hzf)⟩

end Machine

end Sys2Proof
end

section
/-! SUPPORT. The family 40_execute_and_operands.md: what a transfer and a step do, the observation, the width of the working
value, the frame of a destination, the order of the grammar checks, and `recordStep` as `transfer`. -/

namespace Sys2Proof

open Sys2Proof.Machine Sys2Proof.Safety

/-! ### Registers from their numbers and operands (R21, R67) -/

theorem WordReg.eq_of_num_toNat_eq {q r : WordReg} (h : q.num.toNat = r.num.toNat) : q = r := by
  rw [← WordReg.ofNum_num q, BitVec.eq_of_toNat_eq h, WordReg.ofNum_num]

theorem Reg.operand_inj {d e : Reg} (h : d.operand = e.operand) : d = e := (Operand.register.inj h).2

namespace Machine

/-! ### The branches of a transfer and of a step (R85, R87, R103, R151, R154) -/

section
variable {r : Record} {len : Len} {s : State}

theorem transfer_of_halted (h : s.halted = true) (r : Record) (len : Len) : transfer r len s = .next s := by
  rw [transfer, if_pos h]

theorem transfer_of_decode_error {f : FaultRecord} (h : s.halted = false) (hdec : decode r len = .error f) :
    transfer r len s = .next (s.takeFault f) := by
  rw [transfer, if_neg (by simp [h]), hdec]

theorem transfer_of_decode_ok {i : Instr} (h : s.halted = false) (hdec : decode r len = .ok i) :
    transfer r len s = exec i s := by
  rw [transfer, if_neg (by simp [h]), hdec]

theorem step_of_reset (h : s.resetIn = true) : step s = .next s.applyReset := by
  rw [step, stepWithInputs, if_pos h]

theorem step_of_supplied {p : ProgramSlot} (h : s.resetIn = false) (hp : s.supplied = some p) :
    step s = transfer p.record p.len s := by
  rw [step, stepWithInputs, if_neg (by simp [h]), hp]

theorem step_of_no_record (h : s.resetIn = false) (hp : s.supplied = none) : step s = .next s := by
  rw [step, stepWithInputs, if_neg (by simp [h]), hp]

theorem step_of_halted (h : s.halted = true) (hr : s.resetIn = false) : step s = .next s := by
  cases hp : s.supplied with
  | none => exact step_of_no_record hr hp
  | some p => rw [step_of_supplied hr hp, transfer_of_halted h]

end

/-- Settles O3: a step that clears `halted` is not the one that leaves a halted state as it is. -/
theorem haltedBlockTakesNoStep : Obligations.HaltedBlockTakesNoStep := by
  refine ⟨fun s r len h => transfer_of_halted h r len, fun s h hr => step_of_halted h hr, fun s t h hstep ht => ?_⟩
  by_contra hr
  rw [step_of_halted h (by simpa using hr)] at hstep
  cases hstep
  exact absurd h (by simp [ht])

/-- Settles O4: the supplied record is transferred, and a transfer of a record that decodes is its instruction. -/
theorem stepRunsDecodedInstruction : Obligations.StepRunsDecodedInstruction := by
  intro s p i h hr hp hdec
  rw [step_of_supplied hr hp, transfer_of_decode_ok h hdec]

/-- Settles O40: the transfer takes the fault. -/
theorem faultCommitsNothing : Obligations.FaultCommitsNothing := fun _ _ _ _ hdec h => transfer_of_decode_error h hdec

/-! ### The observation (R104) -/

theorem obsDestNumber_some_toNat (d : Reg) : (obsDestNumber (some d)).toNat = d.idx.toNat :=
  BitVec.toNat_setWidth_of_le (by decide)

/-- The number of the word register that holds an index's register (R22, R104). -/
theorem container_num_toNat (d : Reg) :
    (container d).num.toNat = if d.idx.toNat < 8 then d.idx.toNat % 4 else d.idx.toNat - 8 := by
  rcases d with b | r
  · cases b <;> rfl
  · cases r <;> rfl

theorem committed_obs_dest (i : Instr) (s : State) : (committed i s).obs.dest = writtenReg i := by
  cases i <;> rfl

/-- An instruction that writes a register observes that write. -/
theorem committed_observedWrite {i : Instr} {d : Reg} (s : State) (h : writtenReg i = some d) :
    ObservedWrite d s (committed i s) := by
  cases i with
  | movRR | movRI | addRR | addRI | subRR | subRI | loopnz =>
    cases h
    exact (commit_frame ..).1
  | cmpRR | cmpRI | jnz | jz | jp | jc => cases h

/-- Settles O27: a commit observes its own write, and the container's number determines the word register. -/
theorem observationOfEachStep : Obligations.ObservationOfEachStep := by
  refine ⟨fun i s hwf => ?_, fun s t r len f hdec ht => ?_, fun s t r len h ht => ?_, fun s t h ht => ?_⟩
  · have hdest : (committed i s).outputs.obsDest = obsDestNumber (writtenReg i) :=
      congrArg obsDestNumber (committed_obs_dest i s)
    refine ⟨committed i s, exec_wellFormed i s hwf, hdest, fun hnone => ?_, fun d hd => ⟨?_, fun r hr => ?_⟩⟩
    · rw [hdest, hnone]; rfl
    · rw [hdest, hd, obsDestNumber_some_toNat]
    · obtain rfl : r = container d := WordReg.eq_of_num_toNat_eq (hr.trans (container_num_toNat d).symm)
      have hobs := committed_observedWrite s hd
      exact ⟨congrArg Observation.pre hobs, congrArg Observation.post hobs⟩
  · cases h : s.halted with
    | false => rw [transfer_of_decode_error h hdec] at ht; cases ht; rfl
    | true => rw [transfer_of_halted h] at ht; cases ht; rfl
  · rw [transfer_of_halted h] at ht; cases ht; rfl
  · rw [step_of_reset h] at ht; cases ht; exact ⟨rfl, rfl, rfl⟩

/-! ### The working value and its pattern (R96, R97) -/

theorem signExtend_signExtend_of_le {m n : Nat} (k : Nat) (x : BitVec m) (h : m ≤ n) :
    (x.signExtend n).signExtend k = x.signExtend k := by
  rw [BitVec.signExtend, BitVec.toInt_signExtend_of_le h, ← BitVec.signExtend]

/-- A sign-extended value no wider than the destination is the signed value of its pattern there. -/
theorem signExtend_fits {m : Nat} (d : Reg) (x : BitVec m) (h : m ≤ d.bits) :
    (truncTo d (x.signExtend 32)).signExtend 32 = x.signExtend 32 ∧
      (x.signExtend 32).toInt = (truncTo d (x.signExtend 32)).toInt := by
  have hbits := bits_le_working d
  rw [truncTo, setWidth_signExtend_of_le _ _ _ hbits, signExtend_signExtend_of_le _ _ h,
    BitVec.toInt_signExtend_of_le (by omega), BitVec.toInt_signExtend_of_le h]
  exact ⟨rfl, rfl⟩

/-- Settles O34: every working value is sign-extended from a width that is at most the destination's. -/
theorem workingValueFitsWidth : Obligations.WorkingValueFitsWidth := by
  refine ⟨fun s d r h => ?_, fun d i h => ?_⟩
  · have hle : r.bits ≤ d.bits := by rw [Reg.bits, Reg.bits, h]
    exact ⟨(signExtend_fits d (s.read r) hle).1, BitVec.toInt_signExtend_of_le (bits_le_working r)⟩
  · cases i with
    | imm8 v => exact signExtend_fits d v h
    | imm16 v => exact signExtend_fits d v h

/-! ### One register as source and destination (R101) -/

theorem exec_next_eq_committed {i : Instr} {s t : State} (h : exec i s = .next t) (hwf : i.wellFormed = true) :
    t = committed i s := by
  rw [exec_wellFormed i s hwf] at h
  cases h
  rfl

theorem truncTo_sourceReg_self (s : State) (d : Reg) : truncTo d (s.sourceReg d) = s.read d := by
  rw [truncTo_sourceReg s rfl, BitVec.setWidth_eq]

/-- A difference of equal values is 0 and borrows nothing: ZF and PF alone are set. -/
theorem flagsSub_self {w : Nat} (x : BitVec w) : flagsSub x x (x - x) = ⟨false, true, false, true, false, false⟩ := by
  have hovf : overflowFlag (-x.toInt) x 0#w = false := by
    rw [overflowFlag, BitVec.msb_zero, BitVec.msb_eq_toInt]
    by_cases hneg : x.toInt < 0 <;> simp [hneg]
    omega
  rw [BitVec.sub_self]
  simp [flagsSub, hovf, zeroFlag, signFlag, parityFlag, popcount]

/-- Writing a register's own value back leaves the register file. -/
theorem write_read_self (f : RegFile) (d : Reg) : RegFile.write f d (RegFile.read f d) = f := by
  refine Vector.ext fun k hk => ?_
  change (RegFile.write f d (RegFile.read f d)).get ⟨k, hk⟩ = f.get ⟨k, hk⟩
  cases d with
  | byte b =>
    rw [RegFile.write, get_setRb]
    split
    case isTrue h => rw [h]; rfl
    case isFalse => rfl
  | word r =>
    rw [RegFile.write, RegFile.read, RegFile.rw, get_setRw, low_of_append, high_of_append]
    split
    case isTrue h => rw [h]
    case isFalse =>
      split
      case isTrue h => rw [h]
      case isFalse => rfl

/-- Settles O35: the source's pattern is the destination's own pre-step value. -/
theorem sameRegisterTwice : Obligations.SameRegisterTwice := by
  refine ⟨fun len d s t h => ?_, fun len d s t h => ?_, fun len d s t h r => ?_, fun len b r i hi => ?_⟩
  · obtain rfl := exec_next_eq_committed h (sameWidth_of_eq rfl)
    rw [committed, State.flagBits_subFrom, State.subFrom, read_commit, truncTo_sourceReg_self]
    exact ⟨BitVec.sub_self _, flagsSub_self _⟩
  · obtain rfl := exec_next_eq_committed h (sameWidth_of_eq rfl)
    rw [committed, State.addTo, read_commit, truncTo_sourceReg_self, BitVec.toNat_add, two_mul]
  · obtain rfl := exec_next_eq_committed h (sameWidth_of_eq rfl)
    rw [committed, State.move, truncTo_sourceReg_self]
    exact congrArg (RegFile.read · r) (write_read_self s.regs d)
  · fin_cases hi <;> rfl

/-! ### The frame of a destination (R102) -/

/-- Whatever an instruction answers, it writes no register that shares nothing with its first operand. -/
theorem exec_regsKeptBut {i : Instr} {d : Reg} {s t : State} (ha : i.a1 = d.operand) (h : exec i s = .next t) :
    RegsKeptBut d s t := by
  rw [exec_eq] at h
  cases h
  split
  case isFalse => exact fun _ _ => rfl
  case isTrue =>
    cases i with
    | movRR | movRI | addRR | addRI | subRR | subRI =>
      cases Reg.operand_inj ha
      exact (commit_frame ..).2.1
    | cmpRR | cmpRI => exact fun _ _ => rfl
    | jnz | jz | jp | jc | loopnz => cases ha

/-- Different byte registers share nothing. -/
theorem exec_keeps_byteReg {i : Instr} {b c : ByteReg} {s t : State} (ha : i.a1 = (Reg.byte b).operand)
    (h : exec i s = .next t) (hcb : c ≠ b) : t.rb c = s.rb c :=
  exec_regsKeptBut ha h (.byte c) (beq_eq_false_iff_ne.2 hcb.symm)

/-- Settles O36: AL is not AH, and AX is AH above AL. -/
theorem byteDestinationKeepsOtherHalf : Obligations.ByteDestinationKeepsOtherHalf := by
  refine ⟨fun i b c s t => exec_keeps_byteReg, fun len s t h => ?_⟩
  have hal : t.rb .al = s.rb .al := exec_keeps_byteReg rfl h (by decide)
  exact ⟨hal, by rw [← hal]; rfl⟩

end Machine

/-! ### The grammar checks as a list (R93, R94) -/

theorem firstFailing_cons (ok : Bool) (slot : Slot) (rest : List (Bool × Slot)) :
    firstFailing ((ok, slot) :: rest) = if ok then firstFailing rest else .error (grammarFault slot) := by
  cases ok <;> rfl

/-- A computation's error, or only that it answers a value: what a list of checks says of it. -/
def verdict {ε α : Type} : Except ε α → Except ε Unit
  | .ok _ => .ok ()
  | .error e => .error e

theorem verdict_eq_error_iff {ε α : Type} {x : Except ε α} {e : ε} : verdict x = .error e ↔ x = .error e := by
  cases x <;> simp [verdict]

theorem verdict_eq_ok_iff {ε α : Type} {x : Except ε α} : verdict x = .ok () ↔ ∃ a, x = .ok a := by
  cases x <;> simp [verdict]

theorem verdict_bind_ok {ε α β : Type} (x : Except ε α) (f : α → β) :
    verdict (x >>= fun a => .ok (f a)) = verdict x := by
  cases x <;> rfl

@[simp] theorem verdict_error {ε α : Type} (e : ε) : verdict (.error e : Except ε α) = .error e := rfl

theorem verdict_checkAttached {α : Type} (a3 : Operand) (x : α) :
    verdict (checkAttached a3 >>= fun _ => .ok x) = firstFailing [(decide (a3 = .empty), .attached)] := by
  rw [verdict_bind_ok, checkAttached, firstFailing_cons]
  by_cases h : a3 = .empty <;> simp only [h, decide_true, decide_false, if_true, if_false] <;> rfl

theorem verdict_checkDestination {α : Type} (w : Width) (d : Reg) (k : Reg → Except FaultRecord α) :
    verdict (checkDestination (.register w d) >>= k) =
      if w = d.width then verdict (k d) else .error (grammarFault .operand1) := by
  by_cases h : w = d.width <;> simp only [checkDestination, h, if_true, if_false] <;> rfl

/-- The model's grammar of MOV, ADD, SUB and CMP fails as the ordered list of R93 does. -/
theorem verdict_aluGrammar {a1 : Operand} {loc : Option Reg} (h : a1.destination = .ok loc) (a2 a3 : Operand) :
    verdict (aluGrammar a1 a2 a3) = firstFailing (aluCheckList a1 a2 a3 loc) := by
  cases a1 with
  | immediate | memoryDirect | effectiveAddress | relativeJump | displacement | invalid => cases h
  | empty => cases h; cases a2 <;> rfl
  | register w1 d =>
    cases h
    cases a2 with
    | empty | memoryDirect | effectiveAddress | relativeJump | displacement | invalid => rfl
    | register w2 r =>
      simp [aluGrammar, verdict_checkDestination, apply_ite verdict, verdict_checkAttached, aluCheckList,
        firstFailing_cons, isAluSource, declaredWidthOk, sourceFits, sourceWidthOk]
    | immediate i =>
      simp [aluGrammar, verdict_checkDestination, apply_ite verdict, verdict_checkAttached, aluCheckList,
        firstFailing_cons, isAluSource, declaredWidthOk, sourceFits, immWidthOk, -not_le, -Nat.not_le]

/-- The model's grammar of the jumps and LOOPNZ fails as the ordered list of R94 does. -/
theorem verdict_jumpGrammar (a1 a2 a3 : Operand) :
    verdict (jumpGrammar a1 a2 a3) = firstFailing (jumpCheckList a1 a2 a3) := by
  cases a1 with
  | relativeJump rel =>
    simp [jumpGrammar, apply_ite verdict, verdict_checkAttached, jumpCheckList, firstFailing_cons, isRelativeJump]
  | empty | register | memoryDirect | effectiveAddress | immediate | displacement | invalid => rfl

theorem aluChecks_of_resolved {a1 a2 : Operand} {loc : Option Reg} (h2 : a2.sourceFault = none)
    (h1 : a1.destination = .ok loc) (a3 : Operand) : aluChecks a1 a2 a3 = aluGrammar a1 a2 a3 := by
  rw [aluChecks, h2, h1]

theorem jumpChecks_of_resolved {a1 : Operand} (h1 : a1.sourceFault = none) (a2 a3 : Operand) :
    jumpChecks a1 a2 a3 = jumpGrammar a1 a2 a3 := by
  rw [jumpChecks, h1]

/-- Once both operands have resolved, the list of R93 decides whether and how a record's decode fails. -/
theorem verdict_decode_alu {r : Record} {loc : Option Reg} (hop : opBits r ≤ 3)
    (h2 : (Operand.ofBits (Record.a2 r)).sourceFault = none) (h1 : (Operand.ofBits (Record.a1 r)).destination = .ok loc)
    (len : Len) :
    verdict (decode r len) = firstFailing (aluCheckList (Operand.ofBits (Record.a1 r)) (Operand.ofBits (Record.a2 r))
      (Operand.ofBits (Record.a3 r)) loc) := by
  obtain ⟨o, ho⟩ := (opBits_alu_iff r).1 hop
  rw [decode_of_alu_tag ho, verdict_bind_ok, aluChecks_of_resolved h2 h1, verdict_aluGrammar h1]

/-- Once operand 1 has resolved, the list of R94 decides whether and how a record's decode fails. -/
theorem verdict_decode_jump {r : Record} (h4 : 4 ≤ opBits r) (h8 : opBits r ≤ 8)
    (h1 : (Operand.ofBits (Record.a1 r)).sourceFault = none) (len : Len) :
    verdict (decode r len) = firstFailing (jumpCheckList (Operand.ofBits (Record.a1 r)) (Operand.ofBits (Record.a2 r))
      (Operand.ofBits (Record.a3 r))) := by
  obtain ⟨j, hj⟩ := (opBits_jump_iff r).1 ⟨h4, h8⟩
  rw [decode_of_jump_tag hj, verdict_bind_ok, jumpChecks_of_resolved h1, verdict_jumpGrammar]

/-! ### The checks on a record's raw bits (R93, R94) -/

theorem operandOfKind_sourceFault_eq_none {k : Nat} {x : BitVec 32} (h : k ∈ [0, 1, 4, 5]) :
    (operandOfKind k x).sourceFault = none := by
  fin_cases h <;> rfl

/-- Where a resolving destination operand points: the register it names if it is one (R92). -/
theorem operandOfKind_destination {k : Nat} {x : BitVec 32} (h : k ∈ [0, 1]) :
    (operandOfKind k x).destination = .ok (if k = 1 then some (Reg.ofIdx (Descriptor.idx x)) else none) := by
  fin_cases h <;> rfl

theorem isAluSource_operandOfKind (k : Nat) (x : BitVec 32) :
    isAluSource (operandOfKind k x) = decide (k = 1 ∨ k = 4) := by
  unfold operandOfKind
  split <;> simp_all [isAluSource]

theorem isRelativeJump_operandOfKind (k : Nat) (x : BitVec 32) :
    isRelativeJump (operandOfKind k x) = decide (k = 5) := by
  unfold operandOfKind
  split <;> simp_all [isRelativeJump]

theorem declaredWidthOk_operandOfKind (k : Nat) (x : BitVec 32) :
    declaredWidthOk (operandOfKind k x) = decide (k = 1 → x.getLsbD 3 = x.getLsbD 8) := by
  have hwidth : Descriptor.w x = (Reg.ofIdx (Descriptor.idx x)).width ↔ x.getLsbD 3 = x.getLsbD 8 := by
    rw [Descriptor.w, Descriptor.width_ofIdx_idx, widthOfBit_inj]
  unfold operandOfKind
  split <;> simp_all [declaredWidthOk]

/-- Checks 4 and 5 of R93 against the destination's width. -/
theorem sourceFits_a2 (r : Record) :
    sourceFits (some (Reg.ofIdx (Descriptor.idx (Record.a1 r)))) (Operand.ofBits (Record.a2 r)) =
      decide ((kind2 r = 1 → wide2 r = wide1 r) ∧ (kind2 r = 4 → w2 r = true → wide1 r = true)) := by
  have hreg := sameWidth_iff_wide r
  have himm := fits_iff_wide r
  rw [← sourceWidthOk_eq, sourceWidthOk] at hreg
  rw [Imm.fits] at himm
  rw [ofBits_a2]
  generalize kind2 r = k
  unfold operandOfKind
  split <;> simp_all [sourceFits]

theorem ofBits_a3_eq_empty_iff (r : Record) : Operand.ofBits (Record.a3 r) = .empty ↔ kind3 r = 0 := by
  rw [ofBits_a3, operandOfKind_eq_empty_iff]

theorem ofBits_a2_eq_empty_iff (r : Record) : Operand.ofBits (Record.a2 r) = .empty ↔ kind2 r = 0 := by
  rw [ofBits_a2, operandOfKind_eq_empty_iff]

/-- The checks of R93 on raw bits. -/
theorem aluCheckList_raw (r : Record) :
    aluCheckList (Operand.ofBits (Record.a1 r)) (Operand.ofBits (Record.a2 r)) (Operand.ofBits (Record.a3 r))
        (if kind1 r = 1 then some (Reg.ofIdx (Descriptor.idx (Record.a1 r))) else none) =
      [ (decide (kind2 r = 1 ∨ kind2 r = 4), .operand2),
        (decide (kind1 r = 1), .operand1),
        (decide (kind1 r = 1 → w1 r = wide1 r), .operand1),
        (decide (kind2 r = 1 → w2 r = wide2 r), .operand2),
        (decide (kind1 r = 1 →
          (kind2 r = 1 → wide2 r = wide1 r) ∧ (kind2 r = 4 → w2 r = true → wide1 r = true)), .operand2),
        (decide (kind3 r = 0), .attached) ] := by
  have hfits := sourceFits_a2 r
  rw [ofBits_a2] at hfits
  rw [aluCheckList, ofBits_a1, ofBits_a2, isAluSource_operandOfKind, declaredWidthOk_operandOfKind,
    declaredWidthOk_operandOfKind, bit3_a1, bit8_a1, bit3_a2, bit8_a2]
  simp only [ofBits_a3_eq_empty_iff]
  by_cases h : kind1 r = 1
  · simp only [h, if_true, hfits, Option.isSome_some, true_implies, decide_true]
  · simp only [h, if_false, sourceFits, Option.isSome_none, false_implies, decide_true, decide_false]

/-- The checks of R94 on raw bits. -/
theorem jumpCheckList_raw (r : Record) :
    jumpCheckList (Operand.ofBits (Record.a1 r)) (Operand.ofBits (Record.a2 r)) (Operand.ofBits (Record.a3 r)) =
      [ (decide (kind1 r = 5), .operand1), (decide (kind2 r = 0), .operand2), (decide (kind3 r = 0), .attached) ] := by
  simp only [jumpCheckList, ofBits_a2_eq_empty_iff, ofBits_a3_eq_empty_iff]
  rw [ofBits_a1, isRelativeJump_operandOfKind]

/-- Settles O45: the first condition of the chain that holds is the first check of R93's list, on raw bits, that fails. -/
theorem aluGrammarInOrder : Obligations.AluGrammarInOrder := by
  refine ⟨rfl, rfl, rfl, rfl, fun r len hop hk2 hk1 => ?_⟩
  have hverdict := verdict_decode_alu hop (ofBits_a2 r ▸ operandOfKind_sourceFault_eq_none hk2)
    (ofBits_a1 r ▸ operandOfKind_destination hk1) len
  rw [aluCheckList_raw] at hverdict
  simp only [firstFailing_cons, decide_eq_true_eq] at hverdict
  split_ifs with hsource hregister hwidth1 hwidth2 himm hattached
  iterate 6 exact verdict_eq_error_iff.1 (hverdict.trans (by grind only [grammarFault]))
  exact verdict_eq_ok_iff.1 (hverdict.trans (by grind only [firstFailing]))

/-- Settles O46: the decode fails as the list of R94 on raw bits does. -/
theorem jumpGrammarInOrder : Obligations.JumpGrammarInOrder := by
  refine ⟨rfl, rfl, rfl, rfl, fun r len h4 h8 hk1 => ?_⟩
  have hverdict := verdict_decode_jump h4 h8 (ofBits_a1 r ▸ operandOfKind_sourceFault_eq_none hk1) len
  rw [jumpCheckList_raw] at hverdict
  simp only [firstFailing_cons, decide_eq_true_eq] at hverdict
  split_ifs with h1 h2 h3
  · rw [if_neg h1] at hverdict
    exact verdict_eq_error_iff.1 hverdict
  · rw [if_pos (not_not.1 h1), if_neg h2] at hverdict
    exact verdict_eq_error_iff.1 hverdict
  · rw [if_pos (not_not.1 h1), if_pos (not_not.1 h2), if_neg h3] at hverdict
    exact verdict_eq_error_iff.1 hverdict
  · rw [if_pos (not_not.1 h1), if_pos (not_not.1 h2), if_pos (not_not.1 h3)] at hverdict
    exact verdict_eq_ok_iff.1 hverdict

namespace Machine

/-! ### The integer stages on bit vectors (R88, R96, R105, R107 to R116) -/

theorem ofInt_toInt_eq_setWidth {m n : Nat} (x : BitVec m) (h : n ≤ m) : BitVec.ofInt n x.toInt = x.setWidth n :=
  BitVec.signExtend_eq_setWidth_of_le x h

theorem ofInt_toNat_sub {n : Nat} (x y : BitVec n) : BitVec.ofInt n ((x.toNat : Int) - (y.toNat : Int)) = x - y := by
  refine eq_sub_of_add_eq ?_
  calc BitVec.ofInt n ((x.toNat : Int) - (y.toNat : Int)) + y
      = BitVec.ofInt n ((x.toNat : Int) - (y.toNat : Int)) + BitVec.ofInt n (y.toNat : Int) := by
        rw [BitVec.ofInt_natCast, BitVec.ofNat_toNat, BitVec.setWidth_eq]
    _ = x := by
        rw [← BitVec.ofInt_add, sub_add_cancel, BitVec.ofInt_natCast, BitVec.ofNat_toNat, BitVec.setWidth_eq]

theorem decide_toNat_ne_zero {n : Nat} (x : BitVec n) : decide (x.toNat ≠ 0) = (x != 0) := by
  rw [Bool.eq_iff_iff, decide_eq_true_iff, bne_iff_ne]
  exact BitVec.toNat_ne_iff_ne (y := 0)

theorem ipSeqOf_eq (s : State) (len : Len) : ipSeqOf s len = s.ipSeq len := by
  rw [ipSeqOf, State.ipSeq, BitVec.ofNat_add, BitVec.ofNat_toNat, BitVec.ofNat_toNat, BitVec.setWidth_eq]

theorem targetOf_eq (s : State) (len : Len) (rel : Work) : targetOf s len rel = s.ipSeq len + rel.setWidth 16 := by
  rw [targetOf, ipSeqOf_eq, BitVec.ofInt_add, BitVec.ofInt_natCast, BitVec.ofNat_toNat, BitVec.setWidth_eq,
    ofInt_toInt_eq_setWidth rel (by decide)]

/-- The integer stages of MOV, ADD, SUB and CMP make the commit of the decoded instruction. -/
theorem aluStage_eq_committed (o : AluOp) (len : Len) (d : Reg) (src : AluSource) (s : State) :
    aluStage o len d (s.sourceValue src.operand) s = committed (o.instr len d src) s := by
  have hpattern := ofInt_toInt_eq_setWidth (s.sourceValue src.operand) (bits_le_working d)
  cases o with
  | mov | add | sub | cmp =>
    simp only [aluStage, ipSeqOf_eq, hpattern, ofInt_toNat_sub, ← BitVec.add_def]
    cases src <;> rfl

/-- The integer stages of the jumps and LOOPNZ make the commit of the decoded instruction. -/
theorem jumpStage_eq_committed (j : JumpOp) (len : Len) (rel : Byte) (s : State) :
    jumpStage j len (relValue rel) s = committed (j.instr len rel) s := by
  cases j with
  | jnz =>
    simp only [jumpStage, ipSeqOf_eq, targetOf_eq, beq_false]
    rfl
  | jz | jp | jc =>
    simp only [jumpStage, ipSeqOf_eq, targetOf_eq, beq_true]
    rfl
  | loopnz =>
    have hcx : BitVec.ofInt 16 (((s.rw .cx).toNat : Int) - 1) = s.rw .cx - 1 := ofInt_toNat_sub (s.rw .cx) 1
    have hne : decide ((s.rw .cx - 1).toNat ≠ 0) = (s.rw .cx - 1 != 0) := decide_toNat_ne_zero _
    simp only [jumpStage, ipSeqOf_eq, targetOf_eq, beq_false, hcx, hne]
    rfl

/-! ### The record step is the transfer (R85) -/

theorem aluRecord_eq (o : AluOp) (len : Len) (a1 a2 a3 : Operand) (s : State) :
    aluRecord o len a1 a2 a3 s = aluChecks a1 a2 a3 >>= fun p => .ok (committed (o.instr len p.1 p.2) s) := by
  cases h2 : a2.sourceFault with
  | some c => rw [aluRecord, aluChecks, State.resolveSource, h2]; rfl
  | none =>
    cases h1 : a1.destination with
    | error c => rw [aluRecord, aluChecks, State.resolveSource, resolveDestination, h2, h1]; rfl
    | ok loc =>
      have hverdict := verdict_aluGrammar h1 a2 a3
      have hchecks := aluChecks_of_resolved h2 h1 a3
      rw [aluRecord, State.resolveSource, resolveDestination, h2, h1, hchecks]
      change (firstFailing (aluCheckList a1 a2 a3 loc) >>= _) = _
      rw [← hverdict]
      cases hg : aluGrammar a1 a2 a3 with
      | error f => rfl
      | ok p =>
        obtain ⟨d, src⟩ := p
        obtain ⟨rfl, rfl, _, _⟩ := aluChecks_eq_ok_iff.1 (hchecks.trans hg)
        cases h1
        exact congrArg Except.ok (aluStage_eq_committed o len d src s)

theorem jumpRecord_eq (j : JumpOp) (len : Len) (a1 a2 a3 : Operand) (s : State) :
    jumpRecord j len a1 a2 a3 s = jumpChecks a1 a2 a3 >>= fun rel => .ok (committed (j.instr len rel) s) := by
  cases h1 : a1.sourceFault with
  | some c => rw [jumpRecord, jumpChecks, State.resolveSource, h1]; rfl
  | none =>
    have hchecks := jumpChecks_of_resolved h1 a2 a3
    rw [jumpRecord, State.resolveSource, h1, hchecks, ← verdict_jumpGrammar]
    cases hg : jumpGrammar a1 a2 a3 with
    | error f => rfl
    | ok rel =>
      obtain ⟨rfl, _, _⟩ := jumpChecks_eq_ok_iff.1 (hchecks.trans hg)
      exact congrArg Except.ok (jumpStage_eq_committed j len rel s)

/-- The outcome of a record is its decode, with an instruction answered by the state it commits. -/
theorem recordOutcome_eq (r : Record) (len : Len) (s : State) :
    recordOutcome r len s = decode r len >>= fun i => .ok (committed i s) := by
  rw [recordOutcome]
  rcases htag : Opcode.ofTag (Record.op r) with _ | o | j
  · rw [decode_of_reserved_tag htag]; rfl
  · rw [decode_of_alu_tag (Opcode.tag_of_ofTag htag).symm, bind_assoc]
    exact aluRecord_eq o len _ _ _ s
  · rw [decode_of_jump_tag (Opcode.tag_of_ofTag htag).symm, bind_assoc]
    exact jumpRecord_eq j len _ _ _ s

/-- Settles O54: a halted block takes neither; otherwise the decode decides between the fault and the one commit. -/
theorem transferIsTheSpecsStep : Obligations.TransferIsTheSpecsStep := by
  intro r len s
  cases h : s.halted with
  | true => rw [transfer_of_halted h, recordStep, if_pos h]
  | false =>
    rw [recordStep, if_neg (by simp [h]), recordOutcome_eq]
    cases hdec : decode r len with
    | error f => exact transfer_of_decode_error h hdec
    | ok i =>
      rw [transfer_of_decode_ok h hdec]
      exact exec_wellFormed i s (encodeOfDecode r len i hdec).1

end Machine

end Sys2Proof
end

section
/-! SUPPORT. The family 41_move.md: what MOV's commit leaves, and the two admitted forms of MOV. -/

namespace Sys2Proof.Machine

open Sys2Proof.Safety

/-- MOV's commit writes the truncated working value, keeps every flag, and advances `ip` (R105). -/
theorem State.moved_move (s : State) (len : Len) (d : Reg) (v : Work) :
    Moved len d (truncTo d v) s (s.move len d v) :=
  ⟨read_commit s d _ _ _, rfl, advanced_of_ip rfl, commit_frame s d _ _ _⟩

/-- Settles O12: the form is admitted, and the committed pattern of a register source is the register's value (R106). -/
theorem movRegisterCopies : Obligations.MovRegisterCopies := by
  intro len d r s hwidth
  have hexec := exec_wellFormed (.movRR len d r) s (sameWidth_of_eq hwidth)
  exact ⟨_, hexec, truncTo_sourceReg s hwidth ▸ s.moved_move len d (s.sourceReg r)⟩

/-- Settles O13: the form is admitted, and the committed pattern of an immediate is its sign extension (R70, R106). -/
theorem movImmediateExtends : Obligations.MovImmediateExtends := by
  intro len d i s hfits
  have hexec := exec_wellFormed (.movRI len d i) s (fits_of_le hfits)
  exact ⟨_, hexec, truncTo_immValue (d := d) i ▸ s.moved_move len d (immValue i)⟩

end Sys2Proof.Machine
end

section
/-! SUPPORT. The family 42_arith.md: the flag unit on integers, what the commits of ADD, SUB and CMP leave, and their admitted
forms. -/

namespace Sys2Proof.Machine

open Sys2Proof.Safety

/-! ### Each flag of the unit on integers (44_flags.md R121 to R125) -/

section
variable {w : Nat} (a b d1 : BitVec w)

theorem zeroFlag_iff : zeroFlag d1 = true ↔ d1.toNat = 0 := by
  rw [zeroFlag, beq_iff_eq, ← BitVec.toNat_inj, BitVec.toNat_ofNat, Nat.zero_mod]

theorem zeroFlag_sub_iff : zeroFlag (a - b) = true ↔ a.toNat = b.toNat := by
  rw [zeroFlag, beq_iff_eq, BitVec.toNat_inj]
  exact sub_eq_zero

theorem signFlag_iff : signFlag d1 = true ↔ 2 ^ (w - 1) ≤ d1.toNat := by
  rw [signFlag, BitVec.msb_eq_decide, decide_eq_true_iff]

/-- The unit's sum of the low byte's bits counts its 1 bits. -/
theorem popcount_setWidth : popcount (d1.setWidth 8) = onesInLowByte d1.toNat := by
  have hrange : List.range 8 = [0, 1, 2, 3, 4, 5, 6, 7] := rfl
  simp only [onesInLowByte, hrange, List.countP_cons, List.countP_nil, BitVec.testBit_toNat, popcount,
    BitVec.getLsbD_setWidth, Nat.reduceLT, decide_true, Bool.true_and, Bool.toNat, Bool.cond_eq_ite]
  ac_rfl

theorem parityFlag_iff : parityFlag d1 = true ↔ onesInLowByte d1.toNat % 2 = 0 := by
  rw [parityFlag, popcount_setWidth, beq_iff_eq]

/-- For ADD the rule by signs is the signed sum's overflow: the combined source is `b` itself (R123). -/
theorem overflowFlag_add : overflowFlag b.toInt a (a + b) = a.saddOverflow b := by
  rw [overflowFlag, ← BitVec.msb_eq_toInt, BitVec.saddOverflow_eq]
  cases a.msb <;> cases b.msb <;> cases (a + b).msb <;> rfl

/-- For SUB and CMP the rule by signs is the signed difference's overflow. The sign of `-b` is the opposite of `b`'s unless
`b` is 0, and then the destination keeps its sign (R123, R128). -/
theorem overflowFlag_sub : overflowFlag (-b.toInt) a (a - b) = a.ssubOverflow b := by
  rw [overflowFlag, BitVec.ssubOverflow_eq]
  by_cases hzero : b = 0#w
  · rw [hzero, BitVec.sub_zero]
    cases a.msb <;> simp
  · have hne : b.toInt ≠ 0 := fun h => hzero (BitVec.toInt_inj.1 (h.trans BitVec.toInt_zero.symm))
    have hsign : decide (-b.toInt < 0) = !b.msb := by
      rw [BitVec.msb_eq_toInt, ← decide_not, decide_eq_decide]
      omega
    rw [hsign]
    cases a.msb <;> cases b.msb <;> cases (a - b).msb <;> rfl

theorem overflowFlag_add_iff : overflowFlag b.toInt a (a + b) = true ↔
    a.toInt + b.toInt < -2 ^ (w - 1) ∨ 2 ^ (w - 1) ≤ a.toInt + b.toInt := by
  rw [overflowFlag_add, BitVec.saddOverflow, Bool.or_eq_true, decide_eq_true_iff, decide_eq_true_iff, or_comm]

theorem overflowFlag_sub_iff : overflowFlag (-b.toInt) a (a - b) = true ↔
    a.toInt - b.toInt < -2 ^ (w - 1) ∨ 2 ^ (w - 1) ≤ a.toInt - b.toInt := by
  rw [overflowFlag_sub, BitVec.ssubOverflow, Bool.or_eq_true, decide_eq_true_iff, decide_eq_true_iff, or_comm]

/-- The difference as a number, with the borrowed `2 ^ w` in front (R108). -/
theorem toNat_sub_borrow : (a - b).toNat = (2 ^ w + a.toNat - b.toNat) % 2 ^ w := by
  rw [BitVec.toNat_sub', Nat.add_comm (2 ^ w), Nat.add_sub_assoc b.isLt.le]

/-! ### The six flags together (R121 to R126) -/

/-- The unit for ADD computes the flags of the integer sum. -/
theorem addFlags_flagsAdd : AddFlags a b (flagsAdd a b (a + b)) := by
  simp only [AddFlags, ← BitVec.toNat_add]
  exact ⟨decide_eq_true_iff, parityFlag_iff _, decide_eq_true_iff, zeroFlag_iff _, signFlag_iff _,
    overflowFlag_add_iff a b⟩

/-- The unit for SUB and CMP computes the flags of the integer difference. -/
theorem subFlags_flagsSub : SubFlags a b (flagsSub a b (a - b)) := by
  simp only [SubFlags, ← toNat_sub_borrow]
  exact ⟨decide_eq_true_iff, parityFlag_iff _, decide_eq_true_iff, zeroFlag_sub_iff a b, signFlag_iff _,
    overflowFlag_sub_iff a b⟩

end

/-! ### The commits (R107 to R109) -/

/-- ADD's commit writes the sum with the truncated working value and its flags. -/
theorem State.added_addTo (s : State) (len : Len) (d : Reg) (v : Work) :
    Added len d (truncTo d v) s (s.addTo len d v) := by
  refine ⟨?_, ?_, commit_reserved s _ _ _, advanced_of_ip rfl, commit_frame s d _ _ _⟩
  · rw [State.addTo, read_commit, BitVec.toNat_add]
  · rw [State.flagBits_addTo]
    exact addFlags_flagsAdd _ _

/-- SUB's commit writes the difference with the truncated working value and its flags. -/
theorem State.subtracted_subFrom (s : State) (len : Len) (d : Reg) (v : Work) :
    Subtracted len d (truncTo d v) s (s.subFrom len d v) := by
  refine ⟨?_, ?_, commit_reserved s _ _ _, advanced_of_ip rfl, commit_frame s d _ _ _⟩
  · rw [State.subFrom, read_commit, toNat_sub_borrow]
  · rw [State.flagBits_subFrom]
    exact subFlags_flagsSub _ _

/-- CMP's commit has no destination: it writes the difference's flags and `ip`. -/
theorem State.compared_compare (s : State) (len : Len) (d : Reg) (v : Work) :
    Compared len d (truncTo d v) s (s.compare len d v) := by
  refine ⟨?_, commit_reserved s _ _ _, advanced_of_ip rfl, rfl, fun _ => rfl, rfl, rfl, rfl, rfl⟩
  rw [State.flagBits_compare]
  exact subFlags_flagsSub _ _

/-! ### The admitted forms -/

section
variable {i : Instr} {d : Reg} {s : State} (P : BitVec d.bits → State → Prop)

/-- An admitted instruction with a register source has its commit's effect, at the register's own value (R106). -/
theorem exec_effect_of_register {r : Reg} (hwidth : d.width = r.width) (hwf : i.wellFormed = d.sameWidth r)
    (hcommit : P (truncTo d (s.sourceReg r)) (committed i s)) :
    ∃ t, exec i s = .next t ∧ P ((s.read r).setWidth d.bits) t :=
  ⟨_, exec_wellFormed i s (hwf.trans (sameWidth_of_eq hwidth)), truncTo_sourceReg s hwidth ▸ hcommit⟩

/-- An admitted instruction with an immediate source has its commit's effect, at the sign-extended immediate (R70). -/
theorem exec_effect_of_immediate {v : Imm} (hfits : v.width.bits ≤ d.bits) (hwf : i.wellFormed = v.fits d)
    (hcommit : P (truncTo d (immValue v)) (committed i s)) :
    ∃ t, exec i s = .next t ∧ P (immPattern d.bits v) t :=
  ⟨_, exec_wellFormed i s (hwf.trans (fits_of_le hfits)), truncTo_immValue (d := d) v ▸ hcommit⟩

end

/-- Settles O14: ADD's commit at the source register's value. -/
theorem addRegisterSum : Obligations.AddRegisterSum := fun len d r s hwidth =>
  exec_effect_of_register (Added len d · s ·) hwidth rfl (s.added_addTo len d (s.sourceReg r))

/-- Settles O15: ADD's commit at the sign-extended immediate. -/
theorem addImmediateSum : Obligations.AddImmediateSum := fun len d v s hfits =>
  exec_effect_of_immediate (Added len d · s ·) hfits rfl (s.added_addTo len d (immValue v))

/-- Settles O16: SUB's commit at the source register's value. -/
theorem subRegisterDifference : Obligations.SubRegisterDifference := fun len d r s hwidth =>
  exec_effect_of_register (Subtracted len d · s ·) hwidth rfl (s.subtracted_subFrom len d (s.sourceReg r))

/-- Settles O17: SUB's commit at the sign-extended immediate. -/
theorem subImmediateDifference : Obligations.SubImmediateDifference := fun len d v s hfits =>
  exec_effect_of_immediate (Subtracted len d · s ·) hfits rfl (s.subtracted_subFrom len d (immValue v))

/-- Settles O18: CMP's commit at the source register's value. -/
theorem cmpRegisterFlagsOnly : Obligations.CmpRegisterFlagsOnly := fun len d r s hwidth =>
  exec_effect_of_register (Compared len d · s ·) hwidth rfl (s.compared_compare len d (s.sourceReg r))

/-- Settles O19: CMP's commit at the sign-extended immediate. -/
theorem cmpImmediateFlagsOnly : Obligations.CmpImmediateFlagsOnly := fun len d v s hfits =>
  exec_effect_of_immediate (Compared len d · s ·) hfits rfl (s.compared_compare len d (immValue v))

/-! ### CMP beside SUB (R109, R127) -/

/-- Two instructions admitted together whose commits agree on `flags` and `ip` agree on them whether admitted or not: an
ill-formed one leaves both. -/
theorem exec_flags_ip_eq {i j : Instr} {s t u : State} (hwf : i.wellFormed = j.wellFormed)
    (hcommit : (committed i s).flags = (committed j s).flags ∧ (committed i s).ip = (committed j s).ip)
    (ht : exec i s = .next t) (hu : exec j s = .next u) : t.flags = u.flags ∧ t.ip = u.ip := by
  rw [exec_eq] at ht hu
  cases ht
  cases hu
  rw [hwf]
  split
  · exact hcommit
  · exact ⟨rfl, rfl⟩

/-- Settles O33: both commits write the unit's flags for the difference and `ip_seq`. -/
theorem cmpFlagsAreSubFlags : Obligations.CmpFlagsAreSubFlags :=
  ⟨fun _ _ _ _ _ _ => exec_flags_ip_eq rfl ⟨rfl, rfl⟩, fun _ _ _ _ _ _ => exec_flags_ip_eq rfl ⟨rfl, rfl⟩⟩

end Sys2Proof.Machine
end

section
/-! SUPPORT. The family 43_control.md: the target logic, what the commits of the four jumps and of LOOPNZ leave, LOOPNZ run
again and again, and JC after CMP. -/

namespace Sys2Proof.Machine

open Sys2Proof.Safety

/-! ### The target logic (R111) -/

section
variable {len : Len} {rel : Byte} {taken : Bool} {s t : State}

theorem jumpedBy_of_taken (hip : t.ip = s.jumpTo len (relValue rel) taken) (h : taken = true) : JumpedBy len rel s t :=
  jumpedBy_of_ip (hip.trans (if_pos h))

theorem advanced_of_not_taken (hip : t.ip = s.jumpTo len (relValue rel) taken) (h : ¬taken = true) : Advanced len s t :=
  advanced_of_ip (hip.trans (if_neg h))

end

/-! ### The conditional jumps (R112 to R115, R118) -/

/-- A jump's commit has no destination and writes no flag: it moves `ip` alone, by its condition. -/
theorem State.jumped_jump (s : State) (len : Len) (rel : Byte) (taken : Bool) :
    Jumped len rel taken s (s.jump len rel taken) :=
  ⟨jumpedBy_of_taken rfl, fun h => advanced_of_not_taken rfl (Bool.eq_false_iff.1 h), rfl, rfl, fun _ => rfl, rfl, rfl,
    rfl, rfl⟩

/-- Settles O20: each of the four commits one jump, at its own flag. -/
theorem conditionalJumps : Obligations.ConditionalJumps := fun len rel s =>
  ⟨⟨_, exec_wellFormed (.jnz len rel) s rfl, s.jumped_jump len rel _⟩,
    ⟨_, exec_wellFormed (.jz len rel) s rfl, s.jumped_jump len rel _⟩,
    ⟨_, exec_wellFormed (.jp len rel) s rfl, s.jumped_jump len rel _⟩,
    ⟨_, exec_wellFormed (.jc len rel) s rfl, s.jumped_jump len rel _⟩⟩

/-! ### One run of LOOPNZ (R116) -/

section
variable (len : Len) (rel : Byte) (s : State)

theorem exec_loopnz : exec (.loopnz len rel) s = .next (committed (.loopnz len rel) s) := exec_wellFormed _ s rfl

theorem loopnz_cx : (committed (.loopnz len rel) s).rw .cx = s.rw .cx - 1 := read_commit s (.word .cx) _ _ _

theorem loopnz_flags : (committed (.loopnz len rel) s).flags = s.flags := rfl

variable {s}

theorem loopnz_jumpedBy (hcx : s.rw .cx ≠ 1) (hzf : s.zf = false) : JumpedBy len rel s (committed (.loopnz len rel) s) :=
  jumpedBy_of_taken rfl (loopnz_taken hcx hzf)

theorem loopnz_advanced (h : s.rw .cx = 1 ∨ s.zf = true) : Advanced len s (committed (.loopnz len rel) s) := by
  refine advanced_of_not_taken rfl ?_
  rcases h with hcx | hzf
  · rw [hcx]
    exact Bool.false_ne_true
  · rw [hzf, Bool.not_true, Bool.and_false]
    exact Bool.false_ne_true

end

/-- Settles O21: the new CX is 0 exactly when the old one is 1, and the rest is the commit's frame. -/
theorem loopnzDecrementsAndLoops : Obligations.LoopnzDecrementsAndLoops := by
  intro len rel s
  refine ⟨_, exec_loopnz len rel s, ?_, ?_, ?_, loopnz_flags len rel s, commit_frame s (.word .cx) _ _ _⟩ <;>
    rw [loopnz_cx]
  · bv_omega
  · rintro ⟨hcx, hzf⟩
    exact loopnz_jumpedBy len rel (sub_ne_zero.1 hcx) hzf
  · intro h
    exact loopnz_advanced len rel (or_iff_not_imp_left.2 fun hcx =>
      Bool.eq_true_of_not_eq_false fun hzf => h ⟨sub_ne_zero.2 hcx, hzf⟩)

/-! ### LOOPNZ run again and again (R117, R160) -/

/-- An admitted instruction runs every time: its commits, one after another. -/
theorem execTimes_wellFormed {i : Instr} (h : i.wellFormed = true) (n : Nat) (s : State) :
    execTimes i n s = some ((committed i)^[n] s) := by
  induction n with
  | zero => rfl
  | succ n ih => simp only [execTimes, ih, exec_wellFormed i _ h, Function.iterate_succ_apply']

section
variable (len : Len) (rel : Byte) (n : Nat) (s : State)

theorem loopnz_iterate_cx : ((committed (.loopnz len rel))^[n] s).rw .cx = s.rw .cx - BitVec.ofNat 16 n := by
  induction n with
  | zero => exact (BitVec.sub_zero _).symm
  | succ n ih =>
    rw [Function.iterate_succ_apply', loopnz_cx, ih, BitVec.ofNat_add]
    exact sub_sub _ _ _

theorem loopnz_iterate_flags : ((committed (.loopnz len rel))^[n] s).flags = s.flags := by
  induction n with
  | zero => rfl
  | succ n ih => rw [Function.iterate_succ_apply', loopnz_flags, ih]

end

/-- Below the loop count the counter has not passed 0: what is left of it, as a number. -/
theorem toNat_sub_of_lt_loopCount {cx : Word} {n : Nat} (h : n < loopCount cx) :
    (cx - BitVec.ofNat 16 n - 1).toNat = loopCount cx - (n + 1) := by
  by_cases hzero : cx = 0
  · rw [loopCount, if_pos hzero] at h ⊢
    bv_omega
  · rw [loopCount, if_neg hzero] at h ⊢
    bv_omega

/-- Settles O23: the counter falls by one a run, and the run that brings it to 0 is the one that falls through. -/
theorem loopnzRunsCounterTimes : Obligations.LoopnzRunsCounterTimes := by
  intro len rel s hzf n hn
  have hcx := loopnz_iterate_cx len rel n s
  have hflags := loopnz_iterate_flags len rel n s
  have hleft := toNat_sub_of_lt_loopCount hn
  refine ⟨_, _, execTimes_wellFormed rfl n s, exec_loopnz len rel _, ?_, hflags, fun hmore => ?_, fun hlast => ?_⟩
  · rw [loopnz_cx, hcx, hleft]
  · have hne : s.rw .cx - BitVec.ofNat 16 n ≠ 1 := by bv_omega
    exact loopnz_jumpedBy len rel (hcx ▸ hne) ((congrArg (·.getLsbD 6) hflags).trans hzf)
  · have hone : s.rw .cx - BitVec.ofNat 16 n = 1 := by bv_omega
    exact loopnz_advanced len rel (.inl (hcx.trans hone))

/-- Settles O22: the corner cases of one run, and the runs from CX = 0, whose loop count is 65536. -/
theorem loopnzCornerCases : Obligations.LoopnzCornerCases := by
  refine ⟨fun len rel s t hexec => ?_, fun len rel s hcx hzf n hn => ?_⟩
  · obtain rfl : committed (.loopnz len rel) s = t := by simpa [exec_loopnz] using hexec
    refine ⟨fun hcx => ?_, fun hcx => ?_, fun hzf => ?_, rfl⟩
    · have hne : s.rw .cx ≠ 1 := by rw [hcx]; decide
      exact ⟨by rw [loopnz_cx, hcx]; rfl, loopnz_jumpedBy len rel hne⟩
    · exact ⟨by rw [loopnz_cx, hcx]; rfl, loopnz_advanced len rel (.inl hcx)⟩
    · exact ⟨loopnz_cx len rel s, loopnz_advanced len rel (.inr hzf)⟩
  · have hcount : loopCount (s.rw .cx) = 65536 := if_pos hcx
    obtain ⟨t, u, htimes, hexec, hleft, _, htaken, hlast⟩ := loopnzRunsCounterTimes len rel s hzf n (hcount ▸ hn)
    rw [hcount] at hleft htaken hlast
    exact ⟨t, u, htimes, hexec, fun h => htaken (by omega), fun h => ⟨by bv_omega, hlast (by omega)⟩⟩

/-! ### JC after CMP (R115, R157) -/

/-- JC after an instruction that compared `d` with `v` tests the borrow which that comparison committed. -/
theorem exec_jc_after_compared {i : Instr} {len : Len} {d : Reg} {v : BitVec d.bits} {s : State}
    (h : ∃ t, exec i s = .next t ∧ Compared len d v s t) (len' : Len) (rel : Byte) :
    ∃ t u, exec i s = .next t ∧ exec (.jc len' rel) t = .next u ∧
      ((s.read d).toNat < v.toNat → JumpedBy len' rel t u) ∧
      (¬(s.read d).toNat < v.toNat → Advanced len' t u) := by
  obtain ⟨t, hexec, ⟨hcf, _⟩, _⟩ := h
  obtain ⟨_, _, _, u, hjc, htaken, hnot, _⟩ := conditionalJumps len' rel t
  exact ⟨t, u, hexec, hjc, fun hlt => htaken (hcf.2 hlt), fun hge => hnot (Bool.eq_false_iff.2 (mt hcf.1 hge))⟩

/-- A register of the destination's width is read there as the same number. -/
theorem toNat_setWidth_of_width_eq {d r : Reg} (h : d.width = r.width) (x : BitVec r.bits) :
    (x.setWidth d.bits).toNat = x.toNat :=
  BitVec.toNat_setWidth_of_le (congrArg Width.bits h).ge

/-- Settles O37: CMP's carry is the unsigned order of its operands, and JC is taken by it. -/
theorem jcAfterCmpIsUnsignedLess : Obligations.JcAfterCmpIsUnsignedLess := by
  refine ⟨fun len len' d r rel s hwidth => ?_, fun len len' d i rel s hfits => ?_⟩
  · have h := exec_jc_after_compared (cmpRegisterFlagsOnly len d r s hwidth) len' rel
    rwa [toNat_setWidth_of_width_eq hwidth] at h
  · exact exec_jc_after_compared (cmpImmediateFlagsOnly len d i s hfits) len' rel

end Sys2Proof.Machine
end

section
/-! SUPPORT. The family 44_flags.md: the flag unit as one function of the operation, D0, S_W and W, what an admitted ADD, SUB
or CMP leaves in `flags`, and the closed forms of OF, AF and CF. -/

namespace Sys2Proof.Machine

open Sys2Proof.Safety

/-! ### The flag unit as one function (R129) -/

/-- The unit's outputs from all that R129 lets them depend on: ADD or not, the width, D0 and S_W. -/
def flagUnit (add : Bool) (w : Nat) (d0 sw : BitVec w) : FlagBits :=
  if add then flagsAdd d0 sw (d0 + sw) else flagsSub d0 sw (d0 - sw)

/-- Equal widths and equal numbers are equal inputs, whatever terms the widths are written as. -/
theorem flagUnit_congr {add : Bool} {v w : Nat} {a b : BitVec v} {a' b' : BitVec w} (hwidth : v = w)
    (ha : a.toNat = a'.toNat) (hb : b.toNat = b'.toNat) : flagUnit add v a b = flagUnit add w a' b' := by
  subst hwidth
  rw [BitVec.eq_of_toNat_eq ha, BitVec.eq_of_toNat_eq hb]

section
variable (s : State) (d : Reg) (i : Instr)

theorem unitFlags_eq_flagUnit : unitFlags s d i = flagUnit (isAdd i) d.bits (s.read d) (sourcePattern s d i) := by
  rw [unitFlags, arithResult, flagUnit]
  cases isAdd i <;> rfl

/-! ### The unit's flags for an instruction (R121 to R126) -/

theorem unitFlags_zf : (unitFlags s d i).zf = zeroFlag (arithResult s d i) := by
  rw [unitFlags]
  cases isAdd i <;> rfl

theorem unitFlags_sf : (unitFlags s d i).sf = signFlag (arithResult s d i) := by
  rw [unitFlags]
  cases isAdd i <;> rfl

theorem unitFlags_pf : (unitFlags s d i).pf = parityFlag (arithResult s d i) := by
  rw [unitFlags]
  cases isAdd i <;> rfl

/-- OF is R123's rule at the source as it was combined: itself for ADD, its integer negation for SUB and CMP. -/
theorem unitFlags_ovf : (unitFlags s d i).ovf =
    overflowFlag (if isAdd i then (sourcePattern s d i).toInt else -(sourcePattern s d i).toInt) (s.read d)
      (arithResult s d i) := by
  rw [unitFlags]
  cases isAdd i <;> rfl

variable {i}

theorem addFlags_unitFlags (h : isAdd i = true) : AddFlags (s.read d) (sourcePattern s d i) (unitFlags s d i) := by
  rw [unitFlags_eq_flagUnit, h]
  exact addFlags_flagsAdd _ _

theorem subFlags_unitFlags (h : isAdd i = false) : SubFlags (s.read d) (sourcePattern s d i) (unitFlags s d i) := by
  rw [unitFlags_eq_flagUnit, h]
  exact subFlags_flagsSub _ _

end

/-! ### Each flag of an admitted ADD, SUB or CMP (R121 to R126, R129) -/

theorem isAdd_eq_of_opcode_eq {i j : Instr} (h : i.opcode = j.opcode) : isAdd i = isAdd j := by
  rw [isAdd, isAdd, h]

/-- An admitted ADD, SUB or CMP completes with the flags the unit computes. -/
theorem exec_unitFlags {i : Instr} {d : Reg} (s : State) (hwf : i.wellFormed = true) (hd : arithDest i = some d) :
    ∃ t, exec i s = .next t ∧ t.flagBits = unitFlags s d i :=
  ⟨committed i s, exec_wellFormed i s hwf, committed_flagBits s hwf hd⟩

/-- Settles O28: both commits write the one function of R129, at equal inputs. -/
theorem flagUnitIsCombinational : Obligations.FlagUnitIsCombinational := by
  intro i1 i2 d1 d2 s1 s2 hwf1 hwf2 hd1 hd2 hop hwidth hd0 hsw
  obtain ⟨t1, hexec1, hflags1⟩ := exec_unitFlags s1 hwf1 hd1
  obtain ⟨t2, hexec2, hflags2⟩ := exec_unitFlags s2 hwf2 hd2
  refine ⟨t1, t2, hexec1, hexec2, ?_⟩
  rw [hflags1, hflags2, unitFlags_eq_flagUnit, unitFlags_eq_flagUnit, isAdd_eq_of_opcode_eq hop]
  exact flagUnit_congr (congrArg Width.bits hwidth) hd0 hsw

theorem zeroFlag_iff_eq_zero {w : Nat} (d1 : BitVec w) : zeroFlag d1 = true ↔ d1 = 0 := beq_iff_eq

theorem signFlag_eq_getLsbD {w : Nat} (d1 : BitVec w) : signFlag d1 = d1.getLsbD (w - 1) := d1.msb_eq_getLsbD_last

/-- R123's two conditions, the signs as bits W-1. -/
theorem overflowFlag_iff {w : Nat} (m : Int) (d0 d1 : BitVec w) : overflowFlag m d0 d1 = true ↔
    (m < 0 ↔ d0.getLsbD (w - 1) = true) ∧ d0.getLsbD (w - 1) ≠ d1.getLsbD (w - 1) := by
  rw [overflowFlag, d0.msb_eq_getLsbD_last, d1.msb_eq_getLsbD_last, Bool.and_eq_true, beq_iff_eq, bne_iff_ne,
    Bool.eq_iff_iff, decide_eq_true_iff]

/-- Settles O29: for either operation the unit tests the result alone. -/
theorem resultFlagsOfD1 : Obligations.ResultFlagsOfD1 := by
  intro i d s hwf hd
  obtain ⟨t, hexec, hflags⟩ := exec_unitFlags s hwf hd
  have hzf : t.zf = zeroFlag (arithResult s d i) := (congrArg FlagBits.zf hflags).trans (unitFlags_zf s d i)
  have hsf : t.sf = signFlag (arithResult s d i) := (congrArg FlagBits.sf hflags).trans (unitFlags_sf s d i)
  have hpf : t.pf = parityFlag (arithResult s d i) := (congrArg FlagBits.pf hflags).trans (unitFlags_pf s d i)
  exact ⟨t, hexec, hzf ▸ zeroFlag_iff_eq_zero _, hsf ▸ signFlag_eq_getLsbD _, hpf ▸ parityFlag_iff _⟩

/-- Settles O30: the unit's OF is R123's rule at the combined source. -/
theorem overflowFromCombinedSign : Obligations.OverflowFromCombinedSign := by
  intro i d s hwf hd
  obtain ⟨t, hexec, hflags⟩ := exec_unitFlags s hwf hd
  have hovf := (congrArg FlagBits.ovf hflags).trans (unitFlags_ovf s d i)
  exact ⟨t, hexec, (Bool.eq_iff_iff.1 hovf).trans (overflowFlag_iff _ _ _)⟩

/-- Settles O31: the carries are the integer sum's, the borrows the integer difference's. -/
theorem carriesAndBorrows : Obligations.CarriesAndBorrows := by
  intro i d s hwf hd
  obtain ⟨t, hexec, hflags⟩ := exec_unitFlags s hwf hd
  refine ⟨t, hexec, fun hadd => ?_, fun hsub => ?_⟩
  · obtain ⟨hcf, _, haf, _⟩ := hflags ▸ addFlags_unitFlags s d hadd
    exact ⟨hcf, haf⟩
  · obtain ⟨hcf, _, haf, _⟩ := hflags ▸ subFlags_unitFlags s d hsub
    exact ⟨hcf, haf⟩

/-! ### The closed forms (R128) -/

section
variable {w : Nat} (a b : BitVec w)

theorem overflowFlag_add_closed :
    overflowFlag b.toInt a (a + b) = ((a ^^^ (a + b)) &&& (b ^^^ (a + b))).getLsbD (w - 1) := by
  rw [overflowFlag_add, BitVec.saddOverflow_eq, ← BitVec.msb_eq_getLsbD_last, BitVec.msb_and, BitVec.msb_xor,
    BitVec.msb_xor]
  cases a.msb <;> cases b.msb <;> cases (a + b).msb <;> rfl

theorem overflowFlag_sub_closed :
    overflowFlag (-b.toInt) a (a - b) = ((a ^^^ b) &&& (a ^^^ (a - b))).getLsbD (w - 1) := by
  rw [overflowFlag_sub, BitVec.ssubOverflow_eq, ← BitVec.msb_eq_getLsbD_last, BitVec.msb_and, BitVec.msb_xor,
    BitVec.msb_xor]
  cases a.msb <;> cases b.msb <;> cases (a - b).msb <;> rfl

/-- A sum carries out of W bits exactly when it wraps below its first summand. -/
theorem carry_iff_sum_lt : 2 ^ w ≤ a.toNat + b.toNat ↔ (a + b).toNat < a.toNat := by
  have ha := a.isLt
  have hb := b.isLt
  rw [BitVec.toNat_add]
  by_cases h : 2 ^ w ≤ a.toNat + b.toNat
  · rw [Nat.mod_eq_sub_mod h, Nat.mod_eq_of_lt (by omega)]
    omega
  · rw [Nat.mod_eq_of_lt (by omega)]
    omega

variable {a b}

theorem lowNibble_lt (x : BitVec w) : lowNibble x < 16 := Nat.mod_lt _ (by decide)

theorem lowNibble_add (hw : 4 ≤ w) : lowNibble (a + b) = (lowNibble a + lowNibble b) % 16 := by
  have hdvd : 16 ∣ 2 ^ w := Nat.pow_dvd_pow 2 hw
  rw [lowNibble, BitVec.toNat_add, Nat.mod_mod_of_dvd _ hdvd, Nat.add_mod]
  rfl

/-- Bit 4 of the three-way exclusive or is the carry into bit 4, so the carry out of the low nibble. -/
theorem xor_add_bit_four (hw : 4 < w) :
    (a ^^^ b ^^^ (a + b)).getLsbD 4 = decide (16 ≤ lowNibble a + lowNibble b) := by
  have hcarry : BitVec.carry 4 a b false = decide (16 ≤ lowNibble a + lowNibble b) := rfl
  rw [BitVec.getLsbD_xor, BitVec.getLsbD_xor, BitVec.getLsbD_add hw, hcarry,
    ← Bool.xor_assoc (a.getLsbD 4)]
  exact Bool.bne_self_left _ _

/-- `a` is the sum of the difference and `b`, and that sum carries out of the low nibble exactly when the difference borrows
into it. -/
theorem xor_sub_bit_four (hw : 4 < w) :
    (a ^^^ b ^^^ (a - b)).getLsbD 4 = decide (lowNibble a < lowNibble b) := by
  have hsum : a - b + b = a := BitVec.sub_add_cancel a b
  have hnibble : lowNibble a = (lowNibble (a - b) + lowNibble b) % 16 := by rw [← lowNibble_add hw.le, hsum]
  have hxor : a ^^^ b ^^^ (a - b) = (a - b) ^^^ b ^^^ (a - b + b) := by
    rw [hsum]
    ac_rfl
  rw [hxor, xor_add_bit_four hw, decide_eq_decide]
  have ha := lowNibble_lt (a - b)
  have hb := lowNibble_lt b
  omega

end

/-- Settles O32: OF from the sign bits, AF from the carry into bit 4, CF from the wrapped sum or as defined. -/
theorem flagClosedForms : Obligations.FlagClosedForms := by
  intro w a b
  have hw : 4 < w.bits := by cases w <;> decide
  exact ⟨overflowFlag_add_closed a b, (xor_add_bit_four hw).symm, decide_eq_decide.2 (carry_iff_sum_lt a b),
    overflowFlag_sub_closed a b, (xor_sub_bit_four hw).symm, rfl⟩

end Sys2Proof.Machine
end

section
/-! SUPPORT. The family 60_exceptions.md: a step halts by a record's fault alone, and the fault each opcode tag and operand kind
takes before the grammar is checked. -/

namespace Sys2Proof.Machine

open Sys2Proof.Safety

/-! ### Halting (R138) -/

/-- A commit leaves `halted`. -/
theorem committed_halted (i : Instr) (s : State) : (committed i s).halted = s.halted := by
  obtain ⟨d, fl, ip, h⟩ := committed_shape i s
  rw [h, State.commit_halted]

/-- A record that decodes completes its instruction, which is well-formed. -/
theorem transfer_eq_committed {r : Record} {len : Len} {s : State} {i : Instr} (h : s.halted = false)
    (hdec : decode r len = .ok i) : transfer r len s = .next (committed i s) := by
  rw [transfer_of_decode_ok h hdec, exec_wellFormed i s (encodeOfDecode r len i hdec).1]

/-- Settles O8: the supplied record's fault halts the block, and its instruction commits, which does not. -/
theorem onlyFaultsHalt : Obligations.OnlyFaultsHalt := by
  intro s t p h hr hp hstep
  rw [step_of_supplied hr hp] at hstep
  cases hdec : decode p.record p.len with
  | error f =>
    rw [transfer_of_decode_error h hdec] at hstep
    cases hstep
    exact iff_of_true rfl ⟨f, rfl⟩
  | ok i =>
    rw [transfer_eq_committed h hdec] at hstep
    cases hstep
    exact iff_of_false (by simp [committed_halted, h]) nofun

/-! ### The fault each kind of operand takes (R131 to R135) -/

section
variable {k : Nat}

theorem sourceFault_of_memory_kind (h : k = 2 ∨ k = 3) (x : BitVec 32) :
    (operandOfKind k x).sourceFault = some .unsupportedMemorySource := by
  rcases h with rfl | rfl <;> rfl

theorem sourceFault_of_invalid_kind (h : k = 6 ∨ k = 7) (x : BitVec 32) :
    (operandOfKind k x).sourceFault = some .unsupportedInvalidSource := by
  rcases h with rfl | rfl <;> rfl

theorem destination_of_memory_kind (h : k = 2 ∨ k = 3) (x : BitVec 32) :
    (operandOfKind k x).destination = .error .unimplemented := by
  rcases h with rfl | rfl <;> rfl

theorem destination_of_immediate_kind (h : k = 4) (x : BitVec 32) :
    (operandOfKind k x).destination = .error .invalidDestination := by
  rw [h]
  rfl

theorem destination_of_invalid_kind (h : k = 5 ∨ k = 6 ∨ k = 7) (x : BitVec 32) :
    (operandOfKind k x).destination = .error .invalidOperand := by
  rcases h with rfl | rfl | rfl <;> rfl

end

/-! ### The checks before the grammar, in their order (R86, R137) -/

section
variable {r : Record} {c : FaultCode}

theorem ofTag_eq_none_of_reserved (h : 9 ≤ opBits r) : Opcode.ofTag (Record.op r) = none := by
  rcases opBits_cases r with ⟨h3, _⟩ | ⟨_, h8, _⟩ | ⟨_, hnone⟩
  · omega
  · omega
  · exact hnone

/-- The source of MOV, ADD, SUB and CMP is operand 2, and resolves first. -/
theorem decode_of_alu_sourceFault (hop : opBits r ≤ 3)
    (h2 : (operandOfKind (kind2 r) (Record.a2 r)).sourceFault = some c) (len : Len) :
    decode r len = .error ⟨c, .operand2⟩ := by
  obtain ⟨o, ho⟩ := (opBits_alu_iff r).1 hop
  rw [decode_of_alu_tag ho, ofBits_a2, aluChecks, h2]
  rfl

/-- Once the source has resolved, the destination of MOV, ADD, SUB and CMP, operand 1, does. -/
theorem decode_of_alu_destination_error (hop : opBits r ≤ 3)
    (h2 : (operandOfKind (kind2 r) (Record.a2 r)).sourceFault = none)
    (h1 : (operandOfKind (kind1 r) (Record.a1 r)).destination = .error c) (len : Len) :
    decode r len = .error ⟨c, .operand1⟩ := by
  obtain ⟨o, ho⟩ := (opBits_alu_iff r).1 hop
  rw [decode_of_alu_tag ho, ofBits_a1, ofBits_a2, aluChecks, h2, h1]
  rfl

/-- The source of a jump and of LOOPNZ is operand 1. -/
theorem decode_of_jump_sourceFault (h4 : 4 ≤ opBits r) (h8 : opBits r ≤ 8)
    (h1 : (operandOfKind (kind1 r) (Record.a1 r)).sourceFault = some c) (len : Len) :
    decode r len = .error ⟨c, .operand1⟩ := by
  obtain ⟨j, hj⟩ := (opBits_jump_iff r).1 ⟨h4, h8⟩
  rw [decode_of_jump_tag hj, ofBits_a1, jumpChecks, h1]
  rfl

end

/-- Settles O41: no opcode has such a tag, and the opcode is looked at first. -/
theorem reservedOpcodeFaults : Obligations.ReservedOpcodeFaults :=
  ⟨rfl, rfl, fun _ len _ hop h =>
    transfer_of_decode_error h (decode_of_reserved_tag (ofTag_eq_none_of_reserved hop) len)⟩

/-- Settles O42: a memory operand has no source value, at either source slot. -/
theorem memorySourceFaults : Obligations.MemorySourceFaults := by
  refine ⟨rfl, rfl, rfl, rfl, fun r len s h => ⟨fun hop hk2 => ?_, fun h4 h8 hk1 => ?_⟩⟩
  · exact transfer_of_decode_error h (decode_of_alu_sourceFault hop (sourceFault_of_memory_kind hk2 _) len)
  · exact transfer_of_decode_error h (decode_of_jump_sourceFault h4 h8 (sourceFault_of_memory_kind hk1 _) len)

/-- Settles O43: a displacement or an invalid operand has no source value, at either source slot. -/
theorem invalidSourceFaults : Obligations.InvalidSourceFaults := by
  refine ⟨rfl, rfl, rfl, rfl, fun r len s h => ⟨fun hop hk2 => ?_, fun h4 h8 hk1 => ?_⟩⟩
  · exact transfer_of_decode_error h (decode_of_alu_sourceFault hop (sourceFault_of_invalid_kind hk2 _) len)
  · exact transfer_of_decode_error h (decode_of_jump_sourceFault h4 h8 (sourceFault_of_invalid_kind hk1 _) len)

/-- Settles O44: with the source resolved, the destination's own fault is the record's. -/
theorem badDestinationFaults : Obligations.BadDestinationFaults := by
  refine ⟨rfl, rfl, rfl, rfl, rfl, fun r len s h hop hk2 => ?_⟩
  have hfault {c : FaultCode} (h1 : (operandOfKind (kind1 r) (Record.a1 r)).destination = .error c) :
      transfer r len s = .next (haltedWith s c .operand1) :=
    transfer_of_decode_error h
      (decode_of_alu_destination_error hop (operandOfKind_sourceFault_eq_none hk2) h1 len)
  exact ⟨fun hk1 => hfault (destination_of_memory_kind hk1 _),
    fun hk1 => hfault (destination_of_immediate_kind hk1 _), fun hk1 => hfault (destination_of_invalid_kind hk1 _)⟩

/-! ### The table of faults (R130) -/

/-- Settles O47: every error of a decode is in the table, and each code's number and class are its row's. -/
theorem faultsAreTheTablesPairs : Obligations.FaultsAreTheTablesPairs :=
  ⟨fun _ _ _ h => decode_error_tabled h, rfl⟩

end Sys2Proof.Machine
end

section
/-! SUPPORT. The family 70_reset_and_hazards.md: the `reset` input from any state, and the totality of the step. -/

namespace Sys2Proof.Machine

/-! ### The reset input (R151) -/

/-- Settles O2: the step is `applyReset`, whose registers are those of the reset state (O1) and whose other fields are its
literals; that no other step clears `halted` is a clause of O3. -/
theorem resetInputGivesResetState : Obligations.ResetInputGivesResetState := by
  obtain ⟨hregs, hrw, hrb, _⟩ := resetStateIsAllZero
  obtain ⟨_, _, honlyReset⟩ := haltedBlockTakesNoStep
  refine ⟨fun s h => ⟨s.applyReset, step_of_reset h, hregs, hrw, hrb, ?_⟩, honlyReset⟩
  exact ⟨s.applyReset_ip, s.applyReset_flags, s.applyReset_halted, rfl, rfl, rfl, rfl, rfl⟩

/-! ### Totality of the step (R138, R160) -/

/-- Settles O7: a step is the reset, no change, or the transfer of the supplied record, which answers a next state. -/
theorem everyStepHasNextState : Obligations.EveryStepHasNextState := by
  intro s
  cases hr : s.resetIn with
  | true => exact ⟨s.applyReset, step_of_reset hr⟩
  | false =>
    cases hp : s.supplied with
    | none => exact ⟨s, step_of_no_record hr hp⟩
    | some p =>
      rw [step_of_supplied hr hp]
      exact transfer_next p.record p.len s

end Sys2Proof.Machine
end

section
/-! SUPPORT. The family of the model's own choices: the whole flags word after an arithmetic instruction, the informative byte
forms, the front end, and ill-formed terms. -/

namespace Sys2Proof.Machine

open Sys2Proof.Safety

/-! ### The flags register as one word (R127; notes/assumptions/6.md) -/

theorem FlagBits.word_toNat (f : FlagBits) : f.word.toNat =
    2 ^ 11 * f.ovf.toNat + 2 ^ 7 * f.sf.toNat + 2 ^ 6 * f.zf.toNat + 2 ^ 4 * f.af.toNat + 2 ^ 2 * f.pf.toNat +
      f.cf.toNat := by
  rcases f with ⟨_ | _, _ | _, _ | _, _ | _, _ | _, _ | _⟩ <;> rfl

/-- With the reserved bits 0 the register is the word of its six flags. -/
theorem flags_eq_word_flagBits {s : State} (h : reservedFlagsZero s) : s.flags = s.flagBits.word := by
  refine BitVec.eq_of_getLsbD_eq fun n _ => ?_
  by_cases hn : n ∈ [0, 2, 4, 6, 7, 11]
  · simp only [List.mem_cons, List.not_mem_nil, or_false] at hn
    obtain rfl | rfl | rfl | rfl | rfl | rfl := hn
    · exact s.flagBits.word_cf.symm
    · exact s.flagBits.word_pf.symm
    · exact s.flagBits.word_af.symm
    · exact s.flagBits.word_zf.symm
    · exact s.flagBits.word_sf.symm
    · exact s.flagBits.word_ovf.symm
  · rw [h n hn, s.flagBits.word_reserved n ((isFlagBit_false_iff n).2 hn)]

/-- Settles O57: the step writes the unit's six flags and keeps the reserved bits 0, so the word is theirs alone. -/
theorem flagsWordAfterArithmetic : Obligations.FlagsWordAfterArithmetic := by
  intro i d s hreserved hwf hd
  obtain ⟨t, hexec, hflags⟩ := exec_unitFlags s hwf hd
  have hword : t.flags = t.flagBits.word :=
    flags_eq_word_flagBits (reservedFlagsZero_of_kept hreserved (exec_reservedFlagsKept hexec))
  exact ⟨t, hexec, by rw [hword, hflags, FlagBits.word_toNat]⟩

/-! ### The informative byte forms (R79; notes/assumptions/7.md) -/

/-- An admitted instruction of 2 to 4 bytes, no more than the `n` it was read from, and of 2 if it is a jump (R78, R79). -/
structure AdmittedByteForm (n : Nat) (i : Instr) : Prop where
  wellFormed : i.wellFormed = true
  two_le_len : 2 ≤ i.len.toNat
  len_le_four : i.len.toNat ≤ 4
  len_le_bytes : i.len.toNat ≤ n
  jumpLen : relOf i ≠ none → i.len = 2

theorem relOf_aluInstr (o : AluOp) (len : Len) (d : Reg) (src : AluSource) : relOf (o.instr len d src) = none := by
  cases o <;> cases src <;> rfl

theorem admittedByteForm_aluInstr {n : Nat} {len : Len} {d : Reg} {src : AluSource} (o : AluOp)
    (hfits : src.fits d = true) (h2 : 2 ≤ len.toNat) (h4 : len.toNat ≤ 4) (hn : len.toNat ≤ n) :
    AdmittedByteForm n (o.instr len d src) where
  wellFormed := (AluOp.wellFormed_instr o len d src).trans hfits
  two_le_len := by rwa [AluOp.len_instr]
  len_le_four := by rwa [AluOp.len_instr]
  len_le_bytes := by rwa [AluOp.len_instr]
  jumpLen := fun h => absurd (relOf_aluInstr o len d src) h

theorem admittedByteForm_jumpInstr {n : Nat} (j : JumpOp) (rel : Byte) (hn : 2 ≤ n) :
    AdmittedByteForm n (j.instr 2 rel) where
  wellFormed := JumpOp.wellFormed_instr j 2 rel
  two_le_len := by rw [JumpOp.len_instr]; decide
  len_le_four := by rw [JumpOp.len_instr]; decide
  len_le_bytes := by rwa [JumpOp.len_instr]
  jumpLen := fun _ => JumpOp.len_instr j 2 rel

/-- The width bit alone decides the width of a register field (R27). -/
theorem regOfField_width : ∀ (w : Bool) (field : BitVec 3),
    (regOfField w field).width = if w then .word else .byte := by decide

/-- Two registers named under one width bit have the same width. -/
theorem regOfField_fits (w : Bool) (f g : BitVec 3) :
    (AluSource.reg (regOfField w f)).fits (regOfField w g) = true :=
  sameWidth_of_eq ((regOfField_width w g).trans (regOfField_width w f).symm)

theorem regOfField_word {w : Bool} (field : BitVec 3) (h : w = true) : (regOfField w field).width = .word :=
  (regOfField_width w field).trans (if_pos h)

theorem imm8_fits (b : Byte) (d : Reg) : (AluSource.imm (.imm8 b)).fits d = true := by
  cases d <;> rfl

theorem imm16_fits (v : Word) {d : Reg} (h : d.width = .word) : (AluSource.imm (.imm16 v)).fits d = true :=
  fits_of_le (by rw [Reg.bits, h])

/-- Whatever a reader of `n` bytes answers is an admitted instruction of them. -/
def ReadsAdmitted (n : Nat) (x : Option Instr) : Prop := ∀ i, x = some i → AdmittedByteForm n i

/-! The ways the readers are put together. -/

section
variable {n : Nat}

theorem ReadsAdmitted.none : ReadsAdmitted n none := fun _ h => by cases h

theorem ReadsAdmitted.some {i : Instr} (h : AdmittedByteForm n i) : ReadsAdmitted n (some i) := by
  rintro _ ⟨⟩
  exact h

theorem ReadsAdmitted.ite {c : Prop} [Decidable c] {x y : Option Instr} (hx : ReadsAdmitted n x)
    (hy : ReadsAdmitted n y) : ReadsAdmitted n (if c then x else y) := by
  split
  · exact hx
  · exact hy

theorem ReadsAdmitted.bind {α : Type} {x : Option α} {f : α → Option Instr} (hf : ∀ a, ReadsAdmitted n (f a)) :
    ReadsAdmitted n (x >>= f) := by
  cases x with
  | none => exact ReadsAdmitted.none
  | some a => exact hf a

end

/-! The readers. -/

theorem jumpForm_admitted (j : JumpOp) (bs : List Byte) : ReadsAdmitted (bs.length + 1) (jumpForm j bs) := by
  cases bs with
  | nil => exact .none
  | cons b rest => exact .some (admittedByteForm_jumpInstr j b (by simp))

theorem regRegForm_admitted (o : AluOp) (op : Byte) (bs : List Byte) :
    ReadsAdmitted (bs.length + 1) (regRegForm o op bs) := by
  cases bs with
  | nil => exact .none
  | cons m rest =>
    have hform (f g : BitVec 3) : AdmittedByteForm (rest.length + 2)
        (o.instr 2 (regOfField (op.getLsbD 0) g) (.reg (regOfField (op.getLsbD 0) f))) :=
      admittedByteForm_aluInstr o (regOfField_fits _ f g) (by decide) (by decide) (Nat.le_add_left 2 _)
    exact .bind fun (reg, rm) => .ite (.some (hform rm reg)) (.some (hform reg rm))

/-- An immediate after one or two bytes, wide only into a word register. -/
theorem immForm_admitted (o : AluOp) {d : Reg} {before : Len} {wide : Bool} (bs : List Byte)
    (hbefore : before = 1 ∨ before = 2) (hwide : wide = true → d.width = .word) :
    ReadsAdmitted (bs.length + before.toNat) (immForm o d before wide bs) := by
  unfold immForm
  split
  case h_1 b rest =>
    have hfits := imm8_fits b d
    obtain rfl | rfl := hbefore <;>
      exact .some (admittedByteForm_aluInstr o hfits (by decide) (by decide) (by simp))
  case h_2 lo hi rest =>
    have hfits := imm16_fits (hi ++ lo) (hwide rfl)
    obtain rfl | rfl := hbefore <;>
      exact .some (admittedByteForm_aluInstr o hfits (by decide) (by decide) (by simp))
  case h_3 => exact .none

theorem groupForm_admitted (op : Byte) (bs : List Byte) : ReadsAdmitted (bs.length + 1) (groupForm op bs) := by
  cases bs with
  | nil => exact .none
  | cons m rest =>
    exact .bind fun (_, rm) => .bind fun o => immForm_admitted o rest (.inr rfl) fun hwide =>
      regOfField_word rm (Bool.and_eq_true_iff.1 hwide).1

theorem movImmForm_admitted (op : Byte) (bs : List Byte) : ReadsAdmitted (bs.length + 1) (movImmForm op bs) := by
  cases bs with
  | nil => exact .none
  | cons m rest =>
    exact .bind fun (_, rm) => .ite (immForm_admitted .mov rest (.inr rfl) (regOfField_word rm)) .none

/-- `ib` or `iw` right after the opcode byte, whose width bit is the immediate's too. -/
theorem immForm_after_opcode_admitted (o : AluOp) (w : Bool) (field : BitVec 3) (bs : List Byte) :
    ReadsAdmitted (bs.length + 1) (immForm o (regOfField w field) 1 w bs) :=
  immForm_admitted o bs (.inl rfl) (regOfField_word field)

/-- Each opcode byte of R79 leads to one of the readers above, any other byte to none. -/
theorem readBytes_admitted (bs : List Byte) : ReadsAdmitted bs.length (readBytes bs) := by
  cases bs with
  | nil => exact .none
  | cons op rest =>
    unfold readBytes
    refine .ite (jumpForm_admitted .jc rest) ?_
    refine .ite (jumpForm_admitted .jz rest) ?_
    refine .ite (jumpForm_admitted .jnz rest) ?_
    refine .ite (jumpForm_admitted .jp rest) ?_
    refine .ite (jumpForm_admitted .loopnz rest) ?_
    refine .ite (groupForm_admitted op rest) ?_
    refine .ite (regRegForm_admitted .mov op rest) ?_
    refine .ite (immForm_after_opcode_admitted .mov _ _ rest) ?_
    refine .ite (movImmForm_admitted op rest) ?_
    refine .ite ?_ .none
    cases groupOp (op.extractLsb' 3 3) with
    | none => exact .none
    | some o => exact .ite (regRegForm_admitted o op rest) (.ite (immForm_after_opcode_admitted o _ _ rest) .none)

/-- Settles O58: `readBytes` answers nothing but admitted instructions of the bytes given. -/
theorem byteFormsAreAdmitted : Obligations.ByteFormsAreAdmitted := by
  intro bs i h
  obtain ⟨hwf, h2, h4, hn, hjump⟩ := readBytes_admitted bs i h
  exact ⟨hwf, h2, h4, hn, hjump⟩

/-! ### The front end (notes/assumptions/3.md, 4.md) -/

/-- Settles O5: such a step leaves the state as it is. -/
theorem noRecordNoChange : Obligations.NoRecordNoChange := fun _ hr hp => step_of_no_record hr hp

/-- Settles O6: the placed slot is the one supplied, and a 104-bit word loses nothing to the reduction mod 2^104. -/
theorem fetchWordRunsNext : Obligations.FetchWordRunsNext := by
  intro s w hw
  have hsupplied := s.supplied_withFetchWord 104 w
  rw [Nat.mod_eq_of_lt hw] at hsupplied
  rw [step_of_supplied (s.withFetchWord_resetIn 104 w) hsupplied]

/-! ### Ill-formed terms (notes/assumptions/9.md) -/

/-- Settles O24: an instruction that is not admitted takes the grammar fault at slot 2. -/
theorem illFormedInstructionFaults : Obligations.IllFormedInstructionFaults := by
  intro i s h
  rw [exec_eq, if_neg (by simp [h])]
  rfl

end Sys2Proof.Machine
end
